-- ==== Sys2Proof/Config.lean ====
section
/-!
DEFINITION. The implementation parameters of the block (00_scope.md R6, R7, R8). The spec says a
model takes them as arguments; the model carries them in `State.config`, which no step and no
host command changes, so a claim about every state is a claim about every configuration
(log entry 2).
-/

namespace Sys2Proof

/-- `DIV_ROUND` (00_scope.md R8): how `floorDivide` rounds its quotient. The spec fixes `trunc`
(90_conflicts.md C1). -/
inductive DivRound
  | trunc
  | floor
deriving DecidableEq, Repr

/-- `LIT8_MAP` (00_scope.md R7): which control bits form the literal of cb18. The spec leaves it
open. -/
inductive Lit8Map
  | msbFirst
  | lsbFirst
deriving DecidableEq, Repr

/-- What a machine is constructed with (70_reset_and_hazards.md R230). -/
structure Config where
  /-- `EXT_ALLOWED` (R6). -/
  extAllowed : Bool
  /-- `LIT8_MAP` (R7). -/
  lit8Map : Lit8Map
  /-- `DIV_ROUND` (R8). -/
  divRound : DivRound
deriving DecidableEq, Repr

/-- The configuration of `State.reset`. `divRound` is the spec's value (R8). `extAllowed` and
`lit8Map` have no value in the spec: DESIGN CHOICE, unsafe, log entry 2. No statement rests on
them. -/
def Config.atReset : Config := { extAllowed := true, lit8Map := .msbFirst, divRound := .trunc }

end Sys2Proof
end

