-- ==== Sys2Proof/Word.lean ====
section
/-!
DEFINITION. The words of the block: the fixed machine widths (00_scope.md R5), the
width-parameterised FixedWidthWord of the FWW ALU (00_scope.md R12, 40_alu.md R101), and
the names of the 22 control bits (00_scope.md R10). Operations on them stand under Machine/.
-/

namespace Sys2Proof

/-- A 16-bit word: ACC, IR, the registers and buses of the micro machine, a memory cell (R5). -/
abbrev Word := BitVec 16

/-- A 12-bit address: the macro operand field and MAR (R5, R29, R71). -/
abbrev Addr := BitVec 12

/-- An 8-bit control-store address: MPC (R5, R32). -/
abbrev MicroAddr := BitVec 8

/-- A 22-bit control word. Only its bits `cb1` to `cb22` have a meaning (R10); they are kept in
the order of the spec's pattern strings, `cb1` leftmost (DESIGN CHOICE, log entry 4). -/
abbrev ControlWord := BitVec 22

/-- A FixedWidthWord `W(bits, value, unsigned)` (00_scope.md R12). -/
structure FWW where
  /-- The width `w`. -/
  bits : Nat
  /-- The stored value `v`. -/
  value : Nat
  /-- The mode `u`: true disables sign-bit interpretation (40_alu.md R101). -/
  unsigned : Bool
deriving DecidableEq, Repr

/-- An operand of a binary ALU operation: a word or a plain integer (40_alu.md R100, R106). -/
inductive AluOperand
  | word (x : FWW)
  | int (n : Int)
deriving DecidableEq, Repr

/-- The errors of the FWW ALU's contract (40_alu.md R100, 60_exceptions.md R216). -/
inductive AluError
  /-- A width of 0 or less (R102, R119). -/
  | invalidWidth (bits : Int)
  /-- Field widths that do not sum to the word's width (R119). -/
  | fieldWidthMismatch
  /-- A divisor whose signed view is 0 (R111). -/
  | divideByZero
deriving DecidableEq, Repr

/-- The 22 control bits, named as the spec names them (00_scope.md R10, 30_encoding.md R75). -/
inductive ControlBit
  | cb1 | cb2 | cb3 | cb4 | cb5 | cb6 | cb7 | cb8 | cb9 | cb10 | cb11
  | cb12 | cb13 | cb14 | cb15 | cb16 | cb17 | cb18 | cb19 | cb20 | cb21 | cb22
deriving DecidableEq, Repr

end Sys2Proof
end

