-- ==== Sys2Proof/Machine/ControlBits.lean ====
section
/-!
DEFINITION. Reading the bits of a control word (00_scope.md R10, 30_encoding.md R75) and the
8-bit literal of cb18 (30_encoding.md R77).
-/

namespace Sys2Proof

/-- The number the source gives a control bit, 1 to 22. -/
def ControlBit.number : ControlBit → Nat
  | .cb1 => 1 | .cb2 => 2 | .cb3 => 3 | .cb4 => 4 | .cb5 => 5 | .cb6 => 6
  | .cb7 => 7 | .cb8 => 8 | .cb9 => 9 | .cb10 => 10 | .cb11 => 11 | .cb12 => 12
  | .cb13 => 13 | .cb14 => 14 | .cb15 => 15 | .cb16 => 16 | .cb17 => 17 | .cb18 => 18
  | .cb19 => 19 | .cb20 => 20 | .cb21 => 21 | .cb22 => 22

/-- The control bits in increasing order. -/
def ControlBit.all : List ControlBit :=
  [.cb1, .cb2, .cb3, .cb4, .cb5, .cb6, .cb7, .cb8, .cb9, .cb10, .cb11,
   .cb12, .cb13, .cb14, .cb15, .cb16, .cb17, .cb18, .cb19, .cb20, .cb21, .cb22]

/-- Whether control bit `b` of `w` is 1: the character at position `b.number` of the pattern
string, counted from the left (00_scope.md R10). -/
def hasBit (w : ControlWord) (b : ControlBit) : Bool := w.getMsbD (b.number - 1)

/-- The word that sets control bit `b` and no other. -/
def bitMask (b : ControlBit) : ControlWord := 1#22 <<< (22 - b.number)

/-- The control word that sets exactly the listed bits (the notation of 30_encoding.md R97). -/
def wordOfBits (bs : List ControlBit) : ControlWord := bs.foldl (fun w b => w ||| bitMask b) 0

/-- The lowest-numbered control bit that `w` sets, if it sets one. -/
def leadBit (w : ControlWord) : Option ControlBit := ControlBit.all.find? (hasBit w)

/-- `LIT8` (30_encoding.md R77). Under `msbFirst` it is cb15 to cb22 with cb22 of weight 1, the
last eight bits of the pattern string as they stand. Under `lsbFirst` it is cb1 to cb8 with cb1
of weight 1, the first eight bits of the pattern string in reverse. -/
def lit8 (map : Lit8Map) (w : ControlWord) : MicroAddr :=
  match map with
  | .msbFirst => w.extractLsb' 0 8
  | .lsbFirst => (w.extractLsb' 14 8).reverse

end Sys2Proof
end

