-- ==== Sys2Proof/Syntax.lean ====
section
/-!
DEFINITION. The instructions of the block: one constructor per row of spec/opcode_table.json.

A macro row (30_encoding.md R70) is a 16-bit word; its constructor carries the 12-bit operand.
A control-word row (R75) is one control bit, an independent line of a 22-bit control word; the
rows overlap, since a word sets any combination of bits. Its constructor carries the WHOLE control
word, of which its bit is one; the instruction is the five-phase cycle of that word (log entry 5).
-/

namespace Sys2Proof

/-- An instruction of either machine. -/
inductive Instr
  /-- The all-zero macro word, the halt sentinel (30_encoding.md R73). -/
  | haltWord
  /-- Opcode 0 with a non-zero operand (R151). -/
  | nop (a : Addr)
  /-- ACC <- M[operand] (R152). -/
  | load (a : Addr)
  /-- M[operand] <- ACC (R153). -/
  | store (a : Addr)
  /-- ACC <- ACC + M[operand] (R154). -/
  | add (a : Addr)
  /-- ACC <- ACC - M[operand] (R155). -/
  | subtract (a : Addr)
  /-- ACC <- ACC * M[operand] (R156). -/
  | multiply (a : Addr)
  /-- ACC <- ACC / M[operand], signed (R157). -/
  | divide (a : Addr)
  /-- PC <- operand (R171). -/
  | jump (a : Addr)
  /-- PC <- operand if ACC is zero (R172). -/
  | jumpzero (a : Addr)
  /-- PC <- operand if ACC is negative (R173). -/
  | jumpneg (a : Addr)
  /-- Subroutine call (R174). -/
  | jumpsub (a : Addr)
  /-- RETURN: PC <- M[operand] (R175). -/
  | ret (a : Addr)
  /-- Extended: ACC <- operand as an immediate (R160). -/
  | loadi (a : Addr)
  /-- Extended: ACC <- M[M[operand]] (R161). -/
  | loadid (a : Addr)
  /-- Unknown opcode 14, executes as NOP (R158). -/
  | unknown14 (a : Addr)
  /-- Unknown opcode 15, executes as NOP (R159). -/
  | unknown15 (a : Addr)
  /-- A control word with cb1 set: V2 <- A (44_micro_sequencer.md R183). -/
  | cb1AToV2 (w : ControlWord)
  /-- A control word with cb2 set: V2 <- B (44_micro_sequencer.md R183). -/
  | cb2BToV2 (w : ControlWord)
  /-- A control word with cb3 set: V2 <- C (44_micro_sequencer.md R183). -/
  | cb3CToV2 (w : ControlWord)
  /-- A control word with cb4 set: V2 <- D (44_micro_sequencer.md R183). -/
  | cb4DToV2 (w : ControlWord)
  /-- A control word with cb5 set: V1 <- 1 (44_micro_sequencer.md R184). -/
  | cb5OneToV1 (w : ControlWord)
  /-- A control word with cb6 set: V1 <- MDR (44_micro_sequencer.md R184). -/
  | cb6MdrToV1 (w : ControlWord)
  /-- A control word with cb7 set: ALU-1 negates V1 (44_micro_sequencer.md R185). -/
  | cb7Complement (w : ControlWord)
  /-- A control word with cb8 set: ALU-1 doubles the sum (44_micro_sequencer.md R185). -/
  | cb8Double (w : ControlWord)
  /-- A control word with cb9 set: A <- V3 (44_micro_sequencer.md R186). -/
  | cb9LatchA (w : ControlWord)
  /-- A control word with cb10 set: B <- V3 (44_micro_sequencer.md R186). -/
  | cb10LatchB (w : ControlWord)
  /-- A control word with cb11 set: C <- V3 (44_micro_sequencer.md R186). -/
  | cb11LatchC (w : ControlWord)
  /-- A control word with cb12 set: D <- V3 (44_micro_sequencer.md R186). -/
  | cb12LatchD (w : ControlWord)
  /-- A control word with cb13 set: MDR <- V3 (44_micro_sequencer.md R186). -/
  | cb13LatchMdr (w : ControlWord)
  /-- A control word with cb14 set: MAR <- V3[11:0] (44_micro_sequencer.md R187). -/
  | cb14LatchMar (w : ControlWord)
  /-- A control word with cb15 set: MDR <- UM[MAR] (44_micro_sequencer.md R188). -/
  | cb15MemRead (w : ControlWord)
  /-- A control word with cb16 set: UM[MAR] <- MDR (44_micro_sequencer.md R189). -/
  | cb16MemWrite (w : ControlWord)
  /-- A control word with cb17 set: V1 <- 1 in phase 4 (44_micro_sequencer.md R191). -/
  | cb17SeqOne (w : ControlWord)
  /-- A control word with cb18 set: V1 <- LIT8 in phase 4 (44_micro_sequencer.md R192). -/
  | cb18SeqLit8 (w : ControlWord)
  /-- A control word with cb19 set: V1 <- 1 if A is zero, else 2 (44_micro_sequencer.md R193). -/
  | cb19BranchZero (w : ControlWord)
  /-- A control word with cb20 set: V1 <- 1 if A is negative, else 2 (44_micro_sequencer.md R194). -/
  | cb20BranchNeg (w : ControlWord)
  /-- A control word with cb21 set: V1 <- MDR[15:12] (44_micro_sequencer.md R195). -/
  | cb21Dispatch (w : ControlWord)
  /-- A control word with cb22 set: V2 <- MPC (44_micro_sequencer.md R196). -/
  | cb22SeqRelative (w : ControlWord)
  /-- The all-zero control word, the micro halt sentinel (44_micro_sequencer.md R198). -/
  | cwHalt
deriving DecidableEq, Repr

end Sys2Proof
end

