-- ==== Sys2Proof/WellFormed.lean ====
section
/-!
DEFINITION. Which instruction terms stand for a word under the name the decoder gives it.
- `nop a`: the operand is not 0, because the word 0x0000 is the halt sentinel
  (30_encoding.md R73).
- `cb<k>… w`: `w` sets bit cb<k> (its row's pattern, R75), and no lower-numbered bit (the decoder
  names a control word by its lowest-numbered set bit, log entry 5).
-/

namespace Sys2Proof

/-- The row's own bit is set in `w`. -/
def setsOwnBit (b : ControlBit) (w : ControlWord) : Bool := hasBit w b

/-- No bit numbered below `b` is set in `w`. -/
def noLowerBit (b : ControlBit) (w : ControlWord) : Bool :=
  ControlBit.all.all fun c => !(decide (c.number < b.number) && hasBit w c)

/-- `w` is named by the row of `b`. -/
def leadsWith (b : ControlBit) (w : ControlWord) : Bool := setsOwnBit b w && noLowerBit b w

/-- Well-formed instruction terms. -/
def Instr.wellFormed : Instr → Bool
  | .haltWord => true
  | .nop a => a != 0
  | .load _ => true
  | .store _ => true
  | .add _ => true
  | .subtract _ => true
  | .multiply _ => true
  | .divide _ => true
  | .jump _ => true
  | .jumpzero _ => true
  | .jumpneg _ => true
  | .jumpsub _ => true
  | .ret _ => true
  | .loadi _ => true
  | .loadid _ => true
  | .unknown14 _ => true
  | .unknown15 _ => true
  | .cb1AToV2 w => leadsWith .cb1 w
  | .cb2BToV2 w => leadsWith .cb2 w
  | .cb3CToV2 w => leadsWith .cb3 w
  | .cb4DToV2 w => leadsWith .cb4 w
  | .cb5OneToV1 w => leadsWith .cb5 w
  | .cb6MdrToV1 w => leadsWith .cb6 w
  | .cb7Complement w => leadsWith .cb7 w
  | .cb8Double w => leadsWith .cb8 w
  | .cb9LatchA w => leadsWith .cb9 w
  | .cb10LatchB w => leadsWith .cb10 w
  | .cb11LatchC w => leadsWith .cb11 w
  | .cb12LatchD w => leadsWith .cb12 w
  | .cb13LatchMdr w => leadsWith .cb13 w
  | .cb14LatchMar w => leadsWith .cb14 w
  | .cb15MemRead w => leadsWith .cb15 w
  | .cb16MemWrite w => leadsWith .cb16 w
  | .cb17SeqOne w => leadsWith .cb17 w
  | .cb18SeqLit8 w => leadsWith .cb18 w
  | .cb19BranchZero w => leadsWith .cb19 w
  | .cb20BranchNeg w => leadsWith .cb20 w
  | .cb21Dispatch w => leadsWith .cb21 w
  | .cb22SeqRelative w => leadsWith .cb22 w
  | .cwHalt => true

end Sys2Proof
end

