-- ==== Sys2Proof/Decode.lean ====
section
/-!
DEFINITION. Decoding and encoding. A macro word is one 16-bit word with `opcode = [15:12]` and
`operand = [11:0]` (30_encoding.md R70, 41_macro_cycle.md R134); a control word is 22 bits (R75).
Every word of either format has a meaning (R74, R78), so decoding a word is total; only bits that
are no word of the format are rejected, by name.
-/

namespace Sys2Proof

/-- `IR[15:12]` (R70). -/
def opcodeOf (w : Word) : BitVec 4 := w.extractLsb' 12 4

/-- `IR[11:0]` (R70). -/
def operandOf (w : Word) : Addr := w.extractLsb' 0 12

/-- The macro instruction of a 16-bit word. The zero word is the halt sentinel before any
decoding (R73); every opcode has its row (R72). -/
def decodeMacroWord (w : Word) : Instr :=
  if w = 0 then .haltWord
  else
    match (opcodeOf w)[3], (opcodeOf w)[2], (opcodeOf w)[1], (opcodeOf w)[0] with
    | false, false, false, false => .nop (operandOf w)
    | false, false, false, true => .load (operandOf w)
    | false, false, true, false => .store (operandOf w)
    | false, false, true, true => .add (operandOf w)
    | false, true, false, false => .subtract (operandOf w)
    | false, true, false, true => .multiply (operandOf w)
    | false, true, true, false => .divide (operandOf w)
    | false, true, true, true => .jump (operandOf w)
    | true, false, false, false => .jumpzero (operandOf w)
    | true, false, false, true => .jumpneg (operandOf w)
    | true, false, true, false => .jumpsub (operandOf w)
    | true, false, true, true => .ret (operandOf w)
    | true, true, false, false => .loadi (operandOf w)
    | true, true, false, true => .loadid (operandOf w)
    | true, true, true, false => .unknown14 (operandOf w)
    | true, true, true, true => .unknown15 (operandOf w)

/-- The row of a control bit, for a control word that sets it. -/
def rowOfBit (b : ControlBit) (w : ControlWord) : Instr :=
  match b with
  | .cb1 => .cb1AToV2 w
  | .cb2 => .cb2BToV2 w
  | .cb3 => .cb3CToV2 w
  | .cb4 => .cb4DToV2 w
  | .cb5 => .cb5OneToV1 w
  | .cb6 => .cb6MdrToV1 w
  | .cb7 => .cb7Complement w
  | .cb8 => .cb8Double w
  | .cb9 => .cb9LatchA w
  | .cb10 => .cb10LatchB w
  | .cb11 => .cb11LatchC w
  | .cb12 => .cb12LatchD w
  | .cb13 => .cb13LatchMdr w
  | .cb14 => .cb14LatchMar w
  | .cb15 => .cb15MemRead w
  | .cb16 => .cb16MemWrite w
  | .cb17 => .cb17SeqOne w
  | .cb18 => .cb18SeqLit8 w
  | .cb19 => .cb19BranchZero w
  | .cb20 => .cb20BranchNeg w
  | .cb21 => .cb21Dispatch w
  | .cb22 => .cb22SeqRelative w

/-- The instruction of a control word: the halt sentinel if no bit is set (R78), otherwise the row
of its lowest-numbered set bit (log entry 5). -/
def decodeControlWord (w : ControlWord) : Instr :=
  match leadBit w with
  | none => .cwHalt
  | some b => rowOfBit b w

/-- An instruction as the hardware stores it: one macro word or one control word. -/
inductive Encoded
  | macroWord (w : Word)
  | controlWord (w : ControlWord)
deriving DecidableEq, Repr

/-- The instruction of an encoded word. -/
def decode : Encoded → Instr
  | .macroWord w => decodeMacroWord w
  | .controlWord w => decodeControlWord w

/-- Why a number is not an instruction of either format. -/
inductive DecodeError
  /-- A macro word has 16 bits (R70) and a higher bit is set. -/
  | bitsBeyondMacroWord
  /-- A control word has 22 bits (R75) and a higher bit is set. -/
  | bitsBeyondControlWord
deriving DecidableEq, Repr

/-- Read an instruction from the number `w` whose format is told by `nbits`, how many bits the
opcode table gives the row: up to 16 for a macro word, more for a control word. A control word's
bits are numbered as its pattern string read as one number, cb22 bit 0 and cb1 bit 21 (log
entries 4 and 11). -/
def decodeBits (nbits w : Nat) : Except DecodeError Instr :=
  if nbits ≤ 16 then
    if w < 2 ^ 16 then .ok (decode (.macroWord (BitVec.ofNat 16 w)))
    else .error .bitsBeyondMacroWord
  else
    if w < 2 ^ 22 then .ok (decode (.controlWord (BitVec.ofNat 22 w)))
    else .error .bitsBeyondControlWord

/-- The instruction the decoder reads from a word of an opcode-table row, `none` where it
refuses. -/
def decodeTableWord (nbits w : Nat) : Option Instr :=
  match decodeBits nbits w with
  | .ok i => some i
  | .error _ => none

/-- The macro word of an opcode and an operand: `(opcode << 12) | operand` (R70). -/
def macroWordOf (opcode : BitVec 4) (a : Addr) : Word :=
  (opcode.setWidth 16 <<< 12) ||| a.setWidth 16

/-- The word of an instruction (30_encoding.md R72, R73, R75, R78). -/
def encode : Instr → Encoded
  | .haltWord => .macroWord 0
  | .nop a => .macroWord (macroWordOf 0 a)
  | .load a => .macroWord (macroWordOf 1 a)
  | .store a => .macroWord (macroWordOf 2 a)
  | .add a => .macroWord (macroWordOf 3 a)
  | .subtract a => .macroWord (macroWordOf 4 a)
  | .multiply a => .macroWord (macroWordOf 5 a)
  | .divide a => .macroWord (macroWordOf 6 a)
  | .jump a => .macroWord (macroWordOf 7 a)
  | .jumpzero a => .macroWord (macroWordOf 8 a)
  | .jumpneg a => .macroWord (macroWordOf 9 a)
  | .jumpsub a => .macroWord (macroWordOf 10 a)
  | .ret a => .macroWord (macroWordOf 11 a)
  | .loadi a => .macroWord (macroWordOf 12 a)
  | .loadid a => .macroWord (macroWordOf 13 a)
  | .unknown14 a => .macroWord (macroWordOf 14 a)
  | .unknown15 a => .macroWord (macroWordOf 15 a)
  | .cb1AToV2 w => .controlWord w
  | .cb2BToV2 w => .controlWord w
  | .cb3CToV2 w => .controlWord w
  | .cb4DToV2 w => .controlWord w
  | .cb5OneToV1 w => .controlWord w
  | .cb6MdrToV1 w => .controlWord w
  | .cb7Complement w => .controlWord w
  | .cb8Double w => .controlWord w
  | .cb9LatchA w => .controlWord w
  | .cb10LatchB w => .controlWord w
  | .cb11LatchC w => .controlWord w
  | .cb12LatchD w => .controlWord w
  | .cb13LatchMdr w => .controlWord w
  | .cb14LatchMar w => .controlWord w
  | .cb15MemRead w => .controlWord w
  | .cb16MemWrite w => .controlWord w
  | .cb17SeqOne w => .controlWord w
  | .cb18SeqLit8 w => .controlWord w
  | .cb19BranchZero w => .controlWord w
  | .cb20BranchNeg w => .controlWord w
  | .cb21Dispatch w => .controlWord w
  | .cb22SeqRelative w => .controlWord w
  | .cwHalt => .controlWord 0

end Sys2Proof
end

