-- ==== Sys2Proof/Machine/Operands.lean ====
section
/-!
DEFINITION. Operand forms: the views of a FixedWidthWord (40_alu.md R101 to R105), how two ALU
operands are combined (R106, R107), the machines' 16-bit words as FixedWidthWords (R120), and the
operands that the machines zero-extend onto 16 bits (30_encoding.md R71, R76).
-/

namespace Sys2Proof.Machine

/-- `wrap_w(n) = n mod 2^w` (00_scope.md R11). -/
def wrapAt (w : Nat) (n : Int) : Nat := (n % (2 ^ w : Nat)).toNat

/-- The invariant of a word (40_alu.md R101). -/
abbrev ValidWord (x : FWW) : Prop := 1 ≤ x.bits ∧ x.value < 2 ^ x.bits

/-- `construct(bits, n, unsigned)` (40_alu.md R102). -/
def construct (bits n : Int) (unsigned : Bool := false) : Except AluError FWW :=
  if bits ≤ 0 then .error (.invalidWidth bits)
  else .ok { bits := bits.toNat, value := wrapAt bits.toNat n, unsigned := unsigned }

/-- `toSigned(x)`, written `s(x)` (40_alu.md R103). -/
def toSigned (x : FWW) : Int :=
  if x.unsigned = false ∧ x.value.testBit (x.bits - 1) = true then
    -((2 ^ x.bits : Nat) - x.value : Int)
  else x.value

/-- `copy(x)` (40_alu.md R105). -/
def copy (x : FWW) : FWW := { bits := x.bits, value := x.value, unsigned := x.unsigned }

/-- The width and mode of the result of a binary operation (40_alu.md R106). -/
def resultShape : AluOperand → AluOperand → Nat × Bool
  | .word x, .int _ => (x.bits, x.unsigned)
  | .int _, .word y => (y.bits, y.unsigned)
  | .word x, .word y => (max x.bits y.bits, x.unsigned || y.unsigned)
  | .int _, .int _ => (16, true)

/-- The word an operand takes part as, in an operation of the given result shape: a word as it is,
a plain integer as `construct(rw, n, ru)` (40_alu.md R107). -/
def operandWord (shape : Nat × Bool) : AluOperand → FWW
  | .word x => x
  | .int n => { bits := shape.1, value := wrapAt shape.1 n, unsigned := shape.2 }

/-- A shift count (40_alu.md R113): a natural number, given as a plain integer or as a word's stored
value; a negative integer is refused (`none`, log entry 18). -/
def shiftCount : AluOperand → Option Nat
  | .word x => some x.value
  | .int n => if n < 0 then none else some n.toNat

/-- A machine word as the signed-mode word `W(16, v, false)` (10_state.md R20, R23, R27, R28). -/
def signedWord (v : Word) : FWW := { bits := 16, value := v.toNat, unsigned := false }

/-- The 16-bit stored value of an ALU result, as a register write keeps it (00_scope.md R13). -/
def toWord (x : FWW) : Word := BitVec.ofNat 16 x.value

/-- The signed view of a machine word (40_alu.md R103 at width 16). -/
def signedView (v : Word) : Int := toSigned (signedWord v)

/-- `zext_16` of the 12-bit operand field (30_encoding.md R71). -/
def immediateOf (a : Addr) : Word := a.setWidth 16

/-- `zext_16(MPC)` (30_encoding.md R76). -/
def mpcOnBus (a : MicroAddr) : Word := a.setWidth 16

/-- `zext_16(LIT8)` (30_encoding.md R76, R77). -/
def literalOnBus (l : MicroAddr) : Word := l.setWidth 16

/-- `zext_16(MDR[15:12])`, the macro opcode of the word in MDR (30_encoding.md R76). -/
def opcodeOnBus (mdr : Word) : Word := (mdr.extractLsb' 12 4).setWidth 16

/-- `V3[11:0]`, what cb14 latches into MAR (44_micro_sequencer.md R187). -/
def marOfBus (v : Word) : Addr := v.setWidth 12

/-- `V3 mod 256`, what phase 5 loads into MPC (44_micro_sequencer.md R197). -/
def mpcOfBus (v : Word) : MicroAddr := v.setWidth 8

end Sys2Proof.Machine
end

