-- ==== Sys2Proof/Machine/Flags.lean ====
section
/-!
DEFINITION. The block has no flags and no condition codes (10_state.md R25, R35): no operation
records a carry, an overflow or a zero. What stands here are the only condition tests the spec
has, each made on the word itself at the moment it is used.
-/

namespace Sys2Proof.Machine

/-- `isZero(x)` of the FWW ALU: the stored value is 0, whatever the width and mode
(40_alu.md R104). -/
def isZero (x : FWW) : Bool := x.value == 0

/-- The test of JUMPZERO on ACC and of cb19 on A (43_macro_control.md R172,
44_micro_sequencer.md R193). -/
def wordIsZero (v : Word) : Bool := isZero (signedWord v)

/-- The test of JUMPNEG on ACC: its top bit is set (43_macro_control.md R173). -/
def topBitSet (v : Word) : Bool := v.getLsbD 15

/-- The test of cb20 on A: its signed view is negative (44_micro_sequencer.md R194). -/
def isSignedNegative (v : Word) : Bool := decide (signedView v < 0)

end Sys2Proof.Machine
end

