-- ==== Sys2Proof/Machine/State.lean ====
section
/-!
DEFINITION. The whole state of the block (10_state.md): the macro machine, the micro machine, the
configuration both were constructed with, and the model's own choice of which machine the next
step belongs to. Plain data throughout.
-/

namespace Sys2Proof.Machine

/-- An address space of cells of `w` bits: (address, value) pairs, addresses strictly rising and no
value 0. An address that is not listed reads 0, which is what construction and reset give every
cell (20_memory.md R53, 70_reset_and_hazards.md R230, R231, R233). The unit is the spec's smallest
addressable unit, the whole word (20_memory.md R51; log entry 7). -/
abbrev Memory (w : Nat) := List (Nat × BitVec w)

/-- The canonical form of an address space of `bound` cells. -/
abbrev Memory.wf {w : Nat} (bound : Nat) (m : Memory w) : Prop :=
  m.Pairwise (fun p q => p.1 < q.1) ∧ ∀ p ∈ m, p.1 < bound ∧ p.2 ≠ 0

/-- The codes of STATUS (60_exceptions.md R210). -/
inductive StatusCode
  | running
  | halted
  | divideByZero
  | extendedInstructionDisabled
  | addressOutOfRange
deriving DecidableEq, Repr

/-- STATUS (60_exceptions.md R210): the outcome of the last step and its info value. -/
structure Status where
  code : StatusCode
  info : Nat
deriving DecidableEq, Repr

/-- The macro machine's state (10_state.md R20 to R26). -/
structure MacroMachine where
  /-- ACC (R20). -/
  acc : Word
  /-- PC, a plain address index, 0 to 65535 (R21). -/
  pc : Nat
  /-- IR (R22). -/
  ir : Word
  /-- M, 4096 cells (R23). -/
  mem : Memory 16
  /-- STATUS (R26, R210). -/
  status : Status
deriving DecidableEq, Repr

/-- The micro machine's state (10_state.md R27 to R35). -/
structure MicroMachine where
  /-- A (R27). -/
  a : Word
  /-- B (R27). -/
  b : Word
  /-- C (R27). -/
  c : Word
  /-- D (R27). -/
  d : Word
  /-- MDR (R28). -/
  mdr : Word
  /-- MAR (R29). -/
  mar : Addr
  /-- V1 (R30). -/
  v1 : Word
  /-- V2 (R30). -/
  v2 : Word
  /-- V3 (R30). -/
  v3 : Word
  /-- MIR (R31). -/
  mir : ControlWord
  /-- MPC (R32). -/
  mpc : MicroAddr
  /-- CS, 256 entries (R33). -/
  cs : Memory 22
  /-- UM, 4096 cells (R34). -/
  um : Memory 16
  /-- STATUS (R35, R210). -/
  status : Status
deriving DecidableEq, Repr

/-- The two agents of the block (00_scope.md R2). -/
inductive Agent
  | macroMachine
  | microMachine
deriving DecidableEq, Repr

/-- The state of the block. The two machines share nothing (20_memory.md R60). -/
structure State where
  mac : MacroMachine
  mic : MicroMachine
  /-- Construction parameters (00_scope.md R6 to R8; log entry 2). -/
  config : Config
  /-- The MODEL's own field: the machine the next step belongs to (log entry 1). -/
  turn : Agent
deriving DecidableEq, Repr

/-- The runtime faults of a macro step (60_exceptions.md R211 to R213). The spec describes what
taking one leaves, so a meaning TAKES it and answers a next state with STATUS written: no step of
the model ends in `Host.Outcome.fault`. Safe: nothing is lost that the spec records
(log entry 3). -/
inductive Fault
  /-- Raised by DIVIDE whose divisor cell holds 0; info is the operand (R211). Safe: the entry is
  the one the spec describes. -/
  | divideByZero (operand : Nat)
  /-- Raised by LOADI and LOADID when `EXT_ALLOWED` is false; info is the opcode (R212). Safe: the
  entry is the one the spec describes. -/
  | extendedInstructionDisabled (opcode : Nat)
  /-- Raised by the fetch at a PC above 4095 and by LOADID's second read; info is the address
  (R213). Safe: the entry is the one the spec describes. -/
  | addressOutOfRange (address : Nat)
deriving DecidableEq, Repr

/-- Reasons to refuse a step. -/
inductive Refusal
  /-- An instruction without a meaning. No arm of `exec` uses it: every row has its meaning.
  Safe: a refusal proves nothing about the hardware. -/
  | notModelled (mnemonic : String)
deriving DecidableEq, Repr

/-- STATUS after reset, after `loadProgram` and after a step that executed (R210). -/
def Status.running : Status := { code := .running, info := 0 }

/-- A macro machine as constructed and after `reset()` (70_reset_and_hazards.md R230, R231). -/
def MacroMachine.reset : MacroMachine :=
  { acc := 0, pc := 0, ir := 0, mem := [], status := Status.running }

/-- A micro machine as constructed: control store all-zero, everything else at its reset value, and
MIR = CS[0] = 0 (70_reset_and_hazards.md R230, R233). -/
def MicroMachine.reset : MicroMachine :=
  { a := 0, b := 0, c := 0, d := 0, mdr := 0, mar := 0, v1 := 0, v2 := 0, v3 := 0,
    mir := 0, mpc := 0, cs := [], um := [], status := Status.running }

/-- The block constructed with the configuration `cfg` (70_reset_and_hazards.md R230). Which
machine moves first is the model's choice (log entry 1). -/
def State.construct (cfg : Config) : State :=
  { mac := MacroMachine.reset, mic := MicroMachine.reset, config := cfg, turn := .macroMachine }

/-- The block right after reset: newly constructed (R230, R231, R233), with the configuration of
log entry 2. -/
def State.reset : State := State.construct Config.atReset

end Sys2Proof.Machine
end

