-- ==== Sys2Proof/Machine/Ops.lean ====
section
/-!
DEFINITION. The named operations over memory and registers, and the taking of a runtime fault.
-/

namespace Sys2Proof.Machine

/-! ### Address spaces -/

/-- The value of a cell; an unlisted cell holds 0 (20_memory.md R53). -/
def Memory.read {w : Nat} : Memory w → Nat → BitVec w
  | [], _ => 0
  | (k, x) :: t, a => if k = a then x else Memory.read t a

/-- The address space with cell `a` holding `v`, in canonical form. -/
def Memory.write {w : Nat} : Memory w → Nat → BitVec w → Memory w
  | [], a, v => if v = 0 then [] else [(a, v)]
  | (k, x) :: t, a, v =>
    if a < k then (if v = 0 then (k, x) :: t else (a, v) :: (k, x) :: t)
    else if a = k then (if v = 0 then t else (a, v) :: t)
    else (k, x) :: Memory.write t a v

/-- The cells of M and of UM (00_scope.md R5, 20_memory.md R50). -/
def memoryCells : Nat := 4096

/-- The entries of CS (00_scope.md R5, 20_memory.md R50). -/
def controlStoreEntries : Nat := 256

/-! ### Registers of the macro machine -/

/-- Write ACC. -/
def State.setAcc (s : State) (v : Word) : State := { s with mac := { s.mac with acc := v } }

/-- Write PC. -/
def State.setPc (s : State) (n : Nat) : State := { s with mac := { s.mac with pc := n } }

/-- Write IR. -/
def State.setIr (s : State) (v : Word) : State := { s with mac := { s.mac with ir := v } }

/-- Write one cell of M. -/
def State.setCell (s : State) (a : Nat) (v : Word) : State :=
  { s with mac := { s.mac with mem := s.mac.mem.write a v } }

/-- Write the macro machine's STATUS. -/
def State.setMacStatus (s : State) (st : Status) : State :=
  { s with mac := { s.mac with status := st } }

/-- Replace the micro machine's state. -/
def State.setMic (s : State) (m : MicroMachine) : State := { s with mic := m }

/-- Write the micro machine's STATUS. -/
def State.setMicStatus (s : State) (st : Status) : State :=
  { s with mic := { s.mic with status := st } }

/-- Give the next step to a machine (log entry 1). -/
def State.select (s : State) (m : Agent) : State := { s with turn := m }

/-! ### Macro memory accesses -/

/-- A read of M at any address: out of range it raises AddressOutOfRange and does not happen
(20_memory.md R54). -/
def State.memRead (s : State) (a : Nat) : Except Fault Word :=
  if a < memoryCells then .ok (s.mac.mem.read a) else .error (.addressOutOfRange a)

/-- The operand pre-fetch `valueAtAddress = M[operand]` (41_macro_cycle.md R135): in range by the
width of the operand, without effect. -/
def State.valueAt (s : State) (a : Addr) : Word := s.mac.mem.read a.toNat

/-- A write of the cell at the operand address, in range by its width (20_memory.md R55). -/
def State.storeAt (s : State) (a : Addr) (v : Word) : State := s.setCell a.toNat v

/-! ### Ending a macro step -/

/-- "Advance PC": `PC <- PC + 1`, no wrap-around (41_macro_cycle.md R138). -/
def State.advancePc (s : State) : State := s.setPc (s.mac.pc + 1)

/-- The outcome CONTINUE of a macro step: STATUS becomes RUNNING with info 0
(60_exceptions.md R210). -/
def State.continueMacro (s : State) : State := s.setMacStatus Status.running

/-- Advance PC and continue, as every handler but the control transfers ends (42_macro_datapath.md
R150). -/
def State.retire (s : State) : State := s.advancePc.continueMacro

/-- The outcome HALT of a macro step at the zero word: info is PC (60_exceptions.md R210). -/
def State.haltMacro (s : State) : State :=
  s.setMacStatus { code := .halted, info := s.mac.pc }

/-! ### Taking a fault -/

/-- What STATUS records of a fault (60_exceptions.md R210 to R213). -/
def Fault.status : Fault → Status
  | .divideByZero operand => { code := .divideByZero, info := operand }
  | .extendedInstructionDisabled opcode =>
    { code := .extendedInstructionDisabled, info := opcode }
  | .addressOutOfRange address => { code := .addressOutOfRange, info := address }

/-- TAKING A FAULT (60_exceptions.md R218): the step stops and STATUS records the fault; ACC, PC
and M stay as they were and IR keeps what the fetch left (R211 to R213). There is no vector, no
saved register, no mode change and no return instruction: the next step evaluates the state afresh
(R219, 41_macro_cycle.md R142). -/
def takeFault (f : Fault) (s : State) : Host.Outcome State Fault Refusal :=
  .next (s.setMacStatus f.status)

/-- The extension gate of LOADI and LOADID (41_macro_cycle.md R136): it passes when `EXT_ALLOWED`
is true, and otherwise the step takes ExtendedInstructionDisabled. -/
def extensionGate (opcode : Nat) (s : State) (handler : Host.Outcome State Fault Refusal) :
    Host.Outcome State Fault Refusal :=
  if s.config.extAllowed then handler else takeFault (.extendedInstructionDisabled opcode) s

/-! ### The outcome of the last step -/

/-- The outcomes of a step as the spec names them (00_scope.md R14). -/
inductive StepOutcome
  | continued
  | halt
  | fault (f : Fault)
deriving DecidableEq, Repr

/-- The outcome that a STATUS value records (60_exceptions.md R210). -/
def Status.outcome (st : Status) : StepOutcome :=
  match st.code with
  | .running => .continued
  | .halted => .halt
  | .divideByZero => .fault (.divideByZero st.info)
  | .extendedInstructionDisabled => .fault (.extendedInstructionDisabled st.info)
  | .addressOutOfRange => .fault (.addressOutOfRange st.info)

/-- The numeric code of STATUS (60_exceptions.md R210). -/
def StatusCode.number : StatusCode → Nat
  | .running => 0
  | .halted => 1
  | .divideByZero => 2
  | .extendedInstructionDisabled => 3
  | .addressOutOfRange => 4

/-- STATUS of one of the two machines. -/
def State.statusOf (s : State) : Agent → Status
  | .macroMachine => s.mac.status
  | .microMachine => s.mic.status

end Sys2Proof.Machine
end

