-- ==== Sys2Proof/Machine/MacroControl.lean ====
section
/-!
DEFINITION. The handlers of the macro control-transfer opcodes (43_macro_control.md). Every target
is an absolute word address; a taken transfer sets PC and does not also advance it (R170). A target
above 4095 is not checked here: the next fetch faults.
-/

namespace Sys2Proof.Machine

/-- JUMP (R171). -/
def execJump (a : Addr) (s : State) : Host.Outcome State Fault Refusal :=
  .next (s.setPc a.toNat).continueMacro

/-- JUMPZERO (R172): tests ACC itself. -/
def execJumpzero (a : Addr) (s : State) : Host.Outcome State Fault Refusal :=
  if wordIsZero s.mac.acc then .next (s.setPc a.toNat).continueMacro else .next s.retire

/-- JUMPNEG (R173): tests the top bit of ACC. -/
def execJumpneg (a : Addr) (s : State) : Host.Outcome State Fault Refusal :=
  if topBitSet s.mac.acc then .next (s.setPc a.toNat).continueMacro else .next s.retire

/-- The return address a JUMPSUB stores: PC + 1 as a 16-bit word (R174). -/
def returnAddress (s : State) : Word := BitVec.ofNat 16 (s.mac.pc + 1)

/-- JUMPSUB (R174): the return address goes to the operand cell, and the subroutine's body starts
after it. -/
def execJumpsub (a : Addr) (s : State) : Host.Outcome State Fault Refusal :=
  .next ((s.storeAt a (returnAddress s)).setPc (a.toNat + 1)).continueMacro

/-- RETURN (R175): PC takes the stored value, read unsigned. -/
def execRet (a : Addr) (s : State) : Host.Outcome State Fault Refusal :=
  .next (s.setPc (s.valueAt a).toNat).continueMacro

end Sys2Proof.Machine
end

