-- ==== Sys2Proof/Machine/MacroCycle.lean ====
section
/-!
DEFINITION. The macro machine's fetch and its halt (41_macro_cycle.md R131 to R133).
-/

namespace Sys2Proof.Machine

/-- The fetch `IR <- M[PC]` (41_macro_cycle.md R132). At a PC above 4095 it raises
AddressOutOfRange with the address PC and leaves IR as it was (R131). -/
def State.fetch (s : State) : Except Fault State :=
  match s.memRead s.mac.pc with
  | .ok w => .ok (s.setIr w)
  | .error f => .error f

/-- HALT_WORD (41_macro_cycle.md R133): the step's outcome is HALT; PC, ACC and M are unchanged.
The zero word itself is already in IR (R132). -/
def execHaltWord (s : State) : Host.Outcome State Fault Refusal := .next s.haltMacro

end Sys2Proof.Machine
end

