-- ==== Sys2Proof/Machine/Alu.lean ====
section
/-!
DEFINITION. The FWW ALU (40_alu.md): its operations at every width and in both modes, with the
combination rule of mixed operands. No operation has state or writes a flag (R100). Its use at
width 16 by both machines is at the end (R120).
-/

namespace Sys2Proof.Machine

/-- A binary operation that works on the stored values of its operands, in the result shape of
R106 and with the operand values of R107. -/
def storedValueOp (f : FWW → FWW → Nat → Nat) (a b : AluOperand) : FWW :=
  let shape := resultShape a b
  { bits := shape.1, value := f (operandWord shape a) (operandWord shape b) shape.1, unsigned := shape.2 }

/-- `add` (40_alu.md R108). -/
def aluAdd : AluOperand → AluOperand → FWW :=
  storedValueOp fun x y rw => (x.value + y.value) % 2 ^ rw

/-- `subtract` (40_alu.md R109). -/
def aluSubtract : AluOperand → AluOperand → FWW :=
  storedValueOp fun x y rw => wrapAt rw ((x.value : Int) - y.value)

/-- `multiply` (40_alu.md R110). -/
def aluMultiply : AluOperand → AluOperand → FWW :=
  storedValueOp fun x y rw => (x.value * y.value) % 2 ^ rw

/-- The quotient of two integers, rounded as `DIV_ROUND` says (00_scope.md R8, R11). -/
def roundedQuotient (round : DivRound) (x y : Int) : Int :=
  match round with
  | .trunc => Int.tdiv x y
  | .floor => Int.fdiv x y

/-- `floorDivide` (40_alu.md R111): operands by their own signed views, quotient wrapped. -/
def aluFloorDivide (round : DivRound) (a b : AluOperand) : Except AluError FWW :=
  let shape := resultShape a b
  let x := toSigned (operandWord shape a)
  let y := toSigned (operandWord shape b)
  if y = 0 then .error .divideByZero
  else .ok { bits := shape.1, value := wrapAt shape.1 (roundedQuotient round x y),
             unsigned := shape.2 }

/-- `negate` (40_alu.md R112). -/
def aluNegate (x : FWW) : FWW :=
  { bits := x.bits, value := (2 ^ x.bits - x.value) % 2 ^ x.bits, unsigned := x.unsigned }

/-- `shiftLeft` by a natural count (40_alu.md R113). -/
def aluShiftLeft (x : FWW) (k : Nat) : FWW :=
  { bits := x.bits, value := (x.value <<< k) % 2 ^ x.bits, unsigned := x.unsigned }

/-- `shiftRight` by a natural count: zeros enter at the top in either mode (40_alu.md R114). -/
def aluShiftRight (x : FWW) (k : Nat) : FWW :=
  { bits := x.bits, value := x.value >>> k, unsigned := x.unsigned }

/-- `and` (40_alu.md R115). -/
def aluAnd : AluOperand → AluOperand → FWW := storedValueOp fun x y _ => x.value &&& y.value

/-- `or` (40_alu.md R116). -/
def aluOr : AluOperand → AluOperand → FWW := storedValueOp fun x y _ => x.value ||| y.value

/-- `xor` (40_alu.md R117). -/
def aluXor : AluOperand → AluOperand → FWW := storedValueOp fun x y _ => x.value ^^^ y.value

/-- `not` (40_alu.md R118). -/
def aluNot (x : FWW) : FWW :=
  { bits := x.bits, value := (2 ^ x.bits - 1) ^^^ x.value, unsigned := x.unsigned }

/-- The fields of the stored value `v`, most significant first: each field lies above the widths
that follow it (40_alu.md R119). -/
def fieldsOf (v : Nat) : List Nat → List FWW
  | [] => []
  | w :: ws =>
    { bits := w, value := v / 2 ^ ws.sum % 2 ^ w, unsigned := true } :: fieldsOf v ws

/-- `splitFields` (40_alu.md R119). Of several widths of 0 or less the first is reported
(log entry 19). -/
def splitFields (x : FWW) (widths : List Int) : Except AluError (List FWW) :=
  match widths.find? (· ≤ 0) with
  | some w => .error (.invalidWidth w)
  | none =>
    if widths.sum ≠ x.bits then .error .fieldWidthMismatch
    else .ok (fieldsOf x.value (widths.map Int.toNat))

/-- The inverse of `splitFields`: `sum over j of f_j.v * 2^lo_j` (40_alu.md R119). -/
def reassemble (fields : List FWW) : Nat :=
  fields.foldl (fun acc f => acc * 2 ^ f.bits + f.value) 0

/-- The in-place variant of an operation with result `r`, written back into its first operand `x`
(40_alu.md R121). -/
def inPlace (x r : FWW) : FWW :=
  { bits := x.bits, value := r.value % 2 ^ x.bits, unsigned := x.unsigned }

/-- A request to the ALU: an operation name with its operands (40_alu.md R100). -/
inductive AluRequest
  | construct (bits n : Int) (unsigned : Bool)
  | toSigned (x : FWW)
  | isZero (x : FWW)
  | copy (x : FWW)
  | add (a b : AluOperand)
  | subtract (a b : AluOperand)
  | multiply (a b : AluOperand)
  | floorDivide (a b : AluOperand)
  | negate (x : FWW)
  | shiftLeft (x : FWW) (k : AluOperand)
  | shiftRight (x : FWW) (k : AluOperand)
  | and (a b : AluOperand)
  | or (a b : AluOperand)
  | xor (a b : AluOperand)
  | not (x : FWW)
  | splitFields (x : FWW) (widths : List Int)
deriving DecidableEq, Repr

/-- What the ALU answers (40_alu.md R100). `refused` is the answer to a negative shift count, which
the spec gives no meaning (R113, 93_implementation_defined.md). -/
inductive AluAnswer
  | word (x : FWW)
  | boolean (b : Bool)
  | integer (n : Int)
  | words (xs : List FWW)
  | error (e : AluError)
  | refused
deriving DecidableEq, Repr

/-- The answer of an operation that gives a word or an error. -/
def AluAnswer.ofExcept : Except AluError FWW → AluAnswer
  | .ok x => .word x
  | .error e => .error e

/-- The answer of a shift, which is refused when its count is. -/
def AluAnswer.ofShift (shift : Nat → FWW) : Option Nat → AluAnswer
  | some k => .word (shift k)
  | none => .refused

/-- The ALU's interface (40_alu.md R100): equal requests give equal answers. -/
def aluAnswer (round : DivRound) : AluRequest → AluAnswer
  | .construct bits n u => .ofExcept (Sys2Proof.Machine.construct bits n u)
  | .toSigned x => .integer (Sys2Proof.Machine.toSigned x)
  | .isZero x => .boolean (Sys2Proof.Machine.isZero x)
  | .copy x => .word (Sys2Proof.Machine.copy x)
  | .add a b => .word (aluAdd a b)
  | .subtract a b => .word (aluSubtract a b)
  | .multiply a b => .word (aluMultiply a b)
  | .floorDivide a b => .ofExcept (aluFloorDivide round a b)
  | .negate x => .word (aluNegate x)
  | .shiftLeft x k => .ofShift (aluShiftLeft x) (shiftCount k)
  | .shiftRight x k => .ofShift (aluShiftRight x) (shiftCount k)
  | .and a b => .word (aluAnd a b)
  | .or a b => .word (aluOr a b)
  | .xor a b => .word (aluXor a b)
  | .not x => .word (aluNot x)
  | .splitFields x ws =>
    match Sys2Proof.Machine.splitFields x ws with
    | .ok fs => .words fs
    | .error e => .error e

/-- A machine word as an ALU operand. -/
def wordOperand (v : Word) : AluOperand := .word (signedWord v)

/-- The micro ALU primitive (44_micro_sequencer.md R180): negate V1 in place if `complement`, add
V2, shift left by one if `double`. -/
def microAlu (v1 v2 : Word) (complement double : Bool) : Word :=
  let r := signedWord v1
  let r := if complement then inPlace r (aluNegate r) else r
  let r := aluAdd (.word r) (wordOperand v2)
  let r := if double then aluShiftLeft r 1 else r
  toWord r

end Sys2Proof.Machine
end

