-- ==== Sys2Proof/Machine/MacroDatapath.lean ====
section
/-!
DEFINITION. The handlers of the macro opcodes that are no control transfers
(42_macro_datapath.md). Each acts on the macro machine after the fetch; `s.valueAt a` is the word
pre-fetched at the operand address (41_macro_cycle.md R135).
-/

namespace Sys2Proof.Machine

/-- NOP (R151). The operand is not used. -/
def execNop (_a : Addr) (s : State) : Host.Outcome State Fault Refusal := .next s.retire

/-- LOAD (R152). -/
def execLoad (a : Addr) (s : State) : Host.Outcome State Fault Refusal :=
  .next (s.setAcc (s.valueAt a)).retire

/-- STORE (R153). -/
def execStore (a : Addr) (s : State) : Host.Outcome State Fault Refusal :=
  .next (s.storeAt a s.mac.acc).retire

/-- ADD (R154): the FWW ALU's `add` at width 16. -/
def execAdd (a : Addr) (s : State) : Host.Outcome State Fault Refusal :=
  let sum := aluAdd (wordOperand s.mac.acc) (wordOperand (s.valueAt a))
  .next (s.setAcc (toWord sum)).retire

/-- SUBTRACT (R155): the FWW ALU's `subtract` at width 16. -/
def execSubtract (a : Addr) (s : State) : Host.Outcome State Fault Refusal :=
  let difference := aluSubtract (wordOperand s.mac.acc) (wordOperand (s.valueAt a))
  .next (s.setAcc (toWord difference)).retire

/-- MULTIPLY (R156): the FWW ALU's `multiply` at width 16. -/
def execMultiply (a : Addr) (s : State) : Host.Outcome State Fault Refusal :=
  let product := aluMultiply (wordOperand s.mac.acc) (wordOperand (s.valueAt a))
  .next (s.setAcc (toWord product)).retire

/-- DIVIDE (R157): the FWW ALU's `floorDivide` at width 16, which fails exactly when the divisor
cell holds 0; then the step takes DivideByZero with the operand address. -/
def execDivide (a : Addr) (s : State) : Host.Outcome State Fault Refusal :=
  match aluFloorDivide s.config.divRound (wordOperand s.mac.acc) (wordOperand (s.valueAt a)) with
  | .ok quotient => .next (s.setAcc (toWord quotient)).retire
  | .error _ => takeFault (.divideByZero a.toNat) s

/-- LOADI (R160), behind the extension gate of opcode 12 (41_macro_cycle.md R136). -/
def execLoadi (a : Addr) (s : State) : Host.Outcome State Fault Refusal :=
  extensionGate 12 s (.next (s.setAcc (immediateOf a)).retire)

/-- LOADID (R161), behind the extension gate of opcode 13 (41_macro_cycle.md R136). The second
read is at the stored value of the pointer cell and faults above 4095. -/
def execLoadid (a : Addr) (s : State) : Host.Outcome State Fault Refusal :=
  extensionGate 13 s <|
    match s.memRead (s.valueAt a).toNat with
    | .ok v => .next (s.setAcc v).retire
    | .error f => takeFault f s

/-- Unknown opcode 14 (R158): executes as NOP under every configuration. -/
def execUnknown14 (_a : Addr) (s : State) : Host.Outcome State Fault Refusal := .next s.retire

/-- Unknown opcode 15 (R159): executes as NOP under every configuration. -/
def execUnknown15 (_a : Addr) (s : State) : Host.Outcome State Fault Refusal := .next s.retire

end Sys2Proof.Machine
end

