-- ==== Sys2Proof/Machine/MicroPhases.lean ====
section
/-!
DEFINITION. The five phases of a micro cycle (44_micro_sequencer.md R181 to R197): one definition
per control bit, each acting when its bit is set in the current control word `w`, composed in the
order the rules give. A later bit that drives the same bus overwrites an earlier one.
-/

namespace Sys2Proof.Machine

/-- `V1 <- 0; V2 <- 0; V3 <- 0`, at the start of phase 1 (R182) and of phase 4 (R190). -/
def resetBuses (m : MicroMachine) : MicroMachine := { m with v1 := 0, v2 := 0, v3 := 0 }

/-! ### Phase 1: operand select and ALU-1 -/

/-- cb1: V2 <- A (R183). -/
def driveV2FromA (w : ControlWord) (m : MicroMachine) : MicroMachine :=
  if hasBit w .cb1 then { m with v2 := m.a } else m

/-- cb2: V2 <- B (R183). -/
def driveV2FromB (w : ControlWord) (m : MicroMachine) : MicroMachine :=
  if hasBit w .cb2 then { m with v2 := m.b } else m

/-- cb3: V2 <- C (R183). -/
def driveV2FromC (w : ControlWord) (m : MicroMachine) : MicroMachine :=
  if hasBit w .cb3 then { m with v2 := m.c } else m

/-- cb4: V2 <- D (R183). -/
def driveV2FromD (w : ControlWord) (m : MicroMachine) : MicroMachine :=
  if hasBit w .cb4 then { m with v2 := m.d } else m

/-- cb5: V1 <- 1 (R184). -/
def driveV1One (w : ControlWord) (m : MicroMachine) : MicroMachine :=
  if hasBit w .cb5 then { m with v1 := 1 } else m

/-- cb6: V1 <- MDR (R184). -/
def driveV1FromMdr (w : ControlWord) (m : MicroMachine) : MicroMachine :=
  if hasBit w .cb6 then { m with v1 := m.mdr } else m

/-- cb7: whether ALU-1 negates V1 before the add (R185). -/
def complementLine (w : ControlWord) : Bool := hasBit w .cb7

/-- cb8: whether ALU-1 doubles the sum (R185). -/
def doubleLine (w : ControlWord) : Bool := hasBit w .cb8

/-- ALU-1: V3 <- alu(V1, V2, cb7, cb8), in every cycle (R185). -/
def aluOne (w : ControlWord) (m : MicroMachine) : MicroMachine :=
  { m with v3 := microAlu m.v1 m.v2 (complementLine w) (doubleLine w) }

/-- Phase 1 (R182 to R185). -/
def phase1 (w : ControlWord) (m : MicroMachine) : MicroMachine :=
  let m := resetBuses m
  let m := driveV2FromA w m
  let m := driveV2FromB w m
  let m := driveV2FromC w m
  let m := driveV2FromD w m
  let m := driveV1One w m
  let m := driveV1FromMdr w m
  aluOne w m

/-! ### Phase 2: register latch -/

/-- cb9: A <- V3 (R186). -/
def latchA (w : ControlWord) (m : MicroMachine) : MicroMachine :=
  if hasBit w .cb9 then { m with a := m.v3 } else m

/-- cb10: B <- V3 (R186). -/
def latchB (w : ControlWord) (m : MicroMachine) : MicroMachine :=
  if hasBit w .cb10 then { m with b := m.v3 } else m

/-- cb11: C <- V3 (R186). -/
def latchC (w : ControlWord) (m : MicroMachine) : MicroMachine :=
  if hasBit w .cb11 then { m with c := m.v3 } else m

/-- cb12: D <- V3 (R186). -/
def latchD (w : ControlWord) (m : MicroMachine) : MicroMachine :=
  if hasBit w .cb12 then { m with d := m.v3 } else m

/-- cb13: MDR <- V3 (R186). -/
def latchMdr (w : ControlWord) (m : MicroMachine) : MicroMachine :=
  if hasBit w .cb13 then { m with mdr := m.v3 } else m

/-- cb14: MAR <- V3[11:0] (R187). -/
def latchMar (w : ControlWord) (m : MicroMachine) : MicroMachine :=
  if hasBit w .cb14 then { m with mar := marOfBus m.v3 } else m

/-- Phase 2 (R186, R187). -/
def phase2 (w : ControlWord) (m : MicroMachine) : MicroMachine :=
  let m := latchA w m
  let m := latchB w m
  let m := latchC w m
  let m := latchD w m
  let m := latchMdr w m
  latchMar w m

/-! ### Phase 3: memory access -/

/-- cb15: MDR <- UM[MAR] (R188). -/
def readUm (w : ControlWord) (m : MicroMachine) : MicroMachine :=
  if hasBit w .cb15 then { m with mdr := m.um.read m.mar.toNat } else m

/-- cb16: UM[MAR] <- MDR, after cb15 (R189). -/
def writeUm (w : ControlWord) (m : MicroMachine) : MicroMachine :=
  if hasBit w .cb16 then { m with um := m.um.write m.mar.toNat m.mdr } else m

/-- Phase 3 (R188, R189). -/
def phase3 (w : ControlWord) (m : MicroMachine) : MicroMachine :=
  let m := readUm w m
  writeUm w m

/-! ### Phase 4: next-address select and ALU-2 -/

/-- cb17: V1 <- 1 (R191). -/
def nextOne (w : ControlWord) (m : MicroMachine) : MicroMachine :=
  if hasBit w .cb17 then { m with v1 := 1 } else m

/-- cb18: V1 <- LIT8 of the current control word (R192). -/
def nextLiteral (map : Lit8Map) (w : ControlWord) (m : MicroMachine) : MicroMachine :=
  if hasBit w .cb18 then { m with v1 := literalOnBus (lit8 map w) } else m

/-- cb19: V1 <- 1 if A is zero, else 2 (R193). -/
def nextOnZero (w : ControlWord) (m : MicroMachine) : MicroMachine :=
  if hasBit w .cb19 then { m with v1 := if wordIsZero m.a then 1 else 2 } else m

/-- cb20: V1 <- 1 if A is signed-negative, else 2 (R194). -/
def nextOnNegative (w : ControlWord) (m : MicroMachine) : MicroMachine :=
  if hasBit w .cb20 then { m with v1 := if isSignedNegative m.a then 1 else 2 } else m

/-- cb21: V1 <- MDR[15:12] (R195). -/
def nextOpcode (w : ControlWord) (m : MicroMachine) : MicroMachine :=
  if hasBit w .cb21 then { m with v1 := opcodeOnBus m.mdr } else m

/-- cb22: V2 <- MPC (R196). -/
def nextRelative (w : ControlWord) (m : MicroMachine) : MicroMachine :=
  if hasBit w .cb22 then { m with v2 := mpcOnBus m.mpc } else m

/-- ALU-2: V3 <- alu(V1, V2, false, false), in every cycle (R196). -/
def aluTwo (m : MicroMachine) : MicroMachine := { m with v3 := microAlu m.v1 m.v2 false false }

/-- Phase 4 (R190 to R196). -/
def phase4 (map : Lit8Map) (w : ControlWord) (m : MicroMachine) : MicroMachine :=
  let m := resetBuses m
  let m := nextOne w m
  let m := nextLiteral map w m
  let m := nextOnZero w m
  let m := nextOnNegative w m
  let m := nextOpcode w m
  let m := nextRelative w m
  aluTwo m

/-! ### Phase 5: sequence -/

/-- The control word at an address of CS (20_memory.md R57). -/
def MicroMachine.controlWordAt (m : MicroMachine) (a : MicroAddr) : ControlWord :=
  m.cs.read a.toNat

/-- Load MPC and fetch the control word there: phase 5 (R197), and the host's write of MPC
(70_reset_and_hazards.md R234). -/
def MicroMachine.goTo (m : MicroMachine) (a : MicroAddr) : MicroMachine :=
  { m with mpc := a, mir := m.controlWordAt a }

/-- Phase 5: MPC <- V3 mod 256; MIR <- CS[MPC] (R197). -/
def phase5 (m : MicroMachine) : MicroMachine := m.goTo (mpcOfBus m.v3)

/-! ### The cycle -/

/-- One micro cycle of the control word `w` (R181). -/
def microCycle (map : Lit8Map) (w : ControlWord) (m : MicroMachine) : MicroMachine :=
  phase5 (phase4 map w (phase3 w (phase2 w (phase1 w m))))

/-- The state after a control word has executed: the cycle, and STATUS = RUNNING
(60_exceptions.md R210). -/
def State.runControlWord (s : State) (w : ControlWord) : State :=
  (s.setMic (microCycle s.config.lit8Map w s.mic)).setMicStatus Status.running

end Sys2Proof.Machine
end

