-- ==== Sys2Proof/Machine/MicroRows.lean ====
section
/-!
DEFINITION. The meanings of the control-word rows. The instruction of a row is the five-phase cycle
of its whole control word (44_micro_sequencer.md R199), in which the row's own bit acts through the
definition its docstring names (log entry 5).
-/

namespace Sys2Proof.Machine

/-- CB1_A_TO_V2 (R183): cb1 acts as `driveV2FromA` in the cycle. -/
def execCb1AToV2 (w : ControlWord) (s : State) : Host.Outcome State Fault Refusal :=
  .next (s.runControlWord w)

/-- CB2_B_TO_V2 (R183): cb2 acts as `driveV2FromB` in the cycle. -/
def execCb2BToV2 (w : ControlWord) (s : State) : Host.Outcome State Fault Refusal :=
  .next (s.runControlWord w)

/-- CB3_C_TO_V2 (R183): cb3 acts as `driveV2FromC` in the cycle. -/
def execCb3CToV2 (w : ControlWord) (s : State) : Host.Outcome State Fault Refusal :=
  .next (s.runControlWord w)

/-- CB4_D_TO_V2 (R183): cb4 acts as `driveV2FromD` in the cycle. -/
def execCb4DToV2 (w : ControlWord) (s : State) : Host.Outcome State Fault Refusal :=
  .next (s.runControlWord w)

/-- CB5_ONE_TO_V1 (R184): cb5 acts as `driveV1One` in the cycle. -/
def execCb5OneToV1 (w : ControlWord) (s : State) : Host.Outcome State Fault Refusal :=
  .next (s.runControlWord w)

/-- CB6_MDR_TO_V1 (R184): cb6 acts as `driveV1FromMdr` in the cycle. -/
def execCb6MdrToV1 (w : ControlWord) (s : State) : Host.Outcome State Fault Refusal :=
  .next (s.runControlWord w)

/-- CB7_COMPLEMENT (R185): cb7 acts as `complementLine` in the cycle. -/
def execCb7Complement (w : ControlWord) (s : State) : Host.Outcome State Fault Refusal :=
  .next (s.runControlWord w)

/-- CB8_DOUBLE (R185): cb8 acts as `doubleLine` in the cycle. -/
def execCb8Double (w : ControlWord) (s : State) : Host.Outcome State Fault Refusal :=
  .next (s.runControlWord w)

/-- CB9_LATCH_A (R186): cb9 acts as `latchA` in the cycle. -/
def execCb9LatchA (w : ControlWord) (s : State) : Host.Outcome State Fault Refusal :=
  .next (s.runControlWord w)

/-- CB10_LATCH_B (R186): cb10 acts as `latchB` in the cycle. -/
def execCb10LatchB (w : ControlWord) (s : State) : Host.Outcome State Fault Refusal :=
  .next (s.runControlWord w)

/-- CB11_LATCH_C (R186): cb11 acts as `latchC` in the cycle. -/
def execCb11LatchC (w : ControlWord) (s : State) : Host.Outcome State Fault Refusal :=
  .next (s.runControlWord w)

/-- CB12_LATCH_D (R186): cb12 acts as `latchD` in the cycle. -/
def execCb12LatchD (w : ControlWord) (s : State) : Host.Outcome State Fault Refusal :=
  .next (s.runControlWord w)

/-- CB13_LATCH_MDR (R186): cb13 acts as `latchMdr` in the cycle. -/
def execCb13LatchMdr (w : ControlWord) (s : State) : Host.Outcome State Fault Refusal :=
  .next (s.runControlWord w)

/-- CB14_LATCH_MAR (R187): cb14 acts as `latchMar` in the cycle. -/
def execCb14LatchMar (w : ControlWord) (s : State) : Host.Outcome State Fault Refusal :=
  .next (s.runControlWord w)

/-- CB15_MEM_READ (R188): cb15 acts as `readUm` in the cycle. -/
def execCb15MemRead (w : ControlWord) (s : State) : Host.Outcome State Fault Refusal :=
  .next (s.runControlWord w)

/-- CB16_MEM_WRITE (R189): cb16 acts as `writeUm` in the cycle. -/
def execCb16MemWrite (w : ControlWord) (s : State) : Host.Outcome State Fault Refusal :=
  .next (s.runControlWord w)

/-- CB17_SEQ_ONE (R191): cb17 acts as `nextOne` in the cycle. -/
def execCb17SeqOne (w : ControlWord) (s : State) : Host.Outcome State Fault Refusal :=
  .next (s.runControlWord w)

/-- CB18_SEQ_LIT8 (R192): cb18 acts as `nextLiteral` in the cycle. -/
def execCb18SeqLit8 (w : ControlWord) (s : State) : Host.Outcome State Fault Refusal :=
  .next (s.runControlWord w)

/-- CB19_BRANCH_ZERO (R193): cb19 acts as `nextOnZero` in the cycle. -/
def execCb19BranchZero (w : ControlWord) (s : State) : Host.Outcome State Fault Refusal :=
  .next (s.runControlWord w)

/-- CB20_BRANCH_NEG (R194): cb20 acts as `nextOnNegative` in the cycle. -/
def execCb20BranchNeg (w : ControlWord) (s : State) : Host.Outcome State Fault Refusal :=
  .next (s.runControlWord w)

/-- CB21_DISPATCH (R195): cb21 acts as `nextOpcode` in the cycle. -/
def execCb21Dispatch (w : ControlWord) (s : State) : Host.Outcome State Fault Refusal :=
  .next (s.runControlWord w)

/-- CB22_SEQ_RELATIVE (R196): cb22 acts as `nextRelative` in the cycle. -/
def execCb22SeqRelative (w : ControlWord) (s : State) : Host.Outcome State Fault Refusal :=
  .next (s.runControlWord w)

/-- CW_HALT (R198): no phase runs and nothing changes but STATUS, which records HALTED with the
address of the zero word (60_exceptions.md R210). -/
def execCwHalt (s : State) : Host.Outcome State Fault Refusal :=
  .next (s.setMicStatus { code := .halted, info := s.mic.mpc.toNat })

end Sys2Proof.Machine
end

