-- ==== Sys2Proof/Machine/Dispatch.lean ====
section
/-!
DEFINITION. The dispatcher (41_macro_cycle.md R137, 44_micro_sequencer.md R199): one arm per row of
spec/opcode_table.json, each one call of that row's meaning.
-/

namespace Sys2Proof.Machine

def exec (i : Instr) (s : State) : Host.Outcome State Fault Refusal :=
  match i with
  | .haltWord => Sys2Proof.Machine.execHaltWord s
  | .nop a => Sys2Proof.Machine.execNop a s
  | .load a => Sys2Proof.Machine.execLoad a s
  | .store a => Sys2Proof.Machine.execStore a s
  | .add a => Sys2Proof.Machine.execAdd a s
  | .subtract a => Sys2Proof.Machine.execSubtract a s
  | .multiply a => Sys2Proof.Machine.execMultiply a s
  | .divide a => Sys2Proof.Machine.execDivide a s
  | .jump a => Sys2Proof.Machine.execJump a s
  | .jumpzero a => Sys2Proof.Machine.execJumpzero a s
  | .jumpneg a => Sys2Proof.Machine.execJumpneg a s
  | .jumpsub a => Sys2Proof.Machine.execJumpsub a s
  | .ret a => Sys2Proof.Machine.execRet a s
  | .loadi a => Sys2Proof.Machine.execLoadi a s
  | .loadid a => Sys2Proof.Machine.execLoadid a s
  | .unknown14 a => Sys2Proof.Machine.execUnknown14 a s
  | .unknown15 a => Sys2Proof.Machine.execUnknown15 a s
  | .cb1AToV2 w => Sys2Proof.Machine.execCb1AToV2 w s
  | .cb2BToV2 w => Sys2Proof.Machine.execCb2BToV2 w s
  | .cb3CToV2 w => Sys2Proof.Machine.execCb3CToV2 w s
  | .cb4DToV2 w => Sys2Proof.Machine.execCb4DToV2 w s
  | .cb5OneToV1 w => Sys2Proof.Machine.execCb5OneToV1 w s
  | .cb6MdrToV1 w => Sys2Proof.Machine.execCb6MdrToV1 w s
  | .cb7Complement w => Sys2Proof.Machine.execCb7Complement w s
  | .cb8Double w => Sys2Proof.Machine.execCb8Double w s
  | .cb9LatchA w => Sys2Proof.Machine.execCb9LatchA w s
  | .cb10LatchB w => Sys2Proof.Machine.execCb10LatchB w s
  | .cb11LatchC w => Sys2Proof.Machine.execCb11LatchC w s
  | .cb12LatchD w => Sys2Proof.Machine.execCb12LatchD w s
  | .cb13LatchMdr w => Sys2Proof.Machine.execCb13LatchMdr w s
  | .cb14LatchMar w => Sys2Proof.Machine.execCb14LatchMar w s
  | .cb15MemRead w => Sys2Proof.Machine.execCb15MemRead w s
  | .cb16MemWrite w => Sys2Proof.Machine.execCb16MemWrite w s
  | .cb17SeqOne w => Sys2Proof.Machine.execCb17SeqOne w s
  | .cb18SeqLit8 w => Sys2Proof.Machine.execCb18SeqLit8 w s
  | .cb19BranchZero w => Sys2Proof.Machine.execCb19BranchZero w s
  | .cb20BranchNeg w => Sys2Proof.Machine.execCb20BranchNeg w s
  | .cb21Dispatch w => Sys2Proof.Machine.execCb21Dispatch w s
  | .cb22SeqRelative w => Sys2Proof.Machine.execCb22SeqRelative w s
  | .cwHalt => Sys2Proof.Machine.execCwHalt s

end Sys2Proof.Machine
end

