-- ==== Sys2Proof/Machine/Step.lean ====
section
/-!
DEFINITION. One step of the block: the step of the machine whose turn it is. `turn` is the model's
own field (log entry 1); no step changes it.
-/

namespace Sys2Proof.Machine

/-- One macro step (41_macro_cycle.md R130): fetch, then the instruction of the word now in IR.
A fetch out of range takes the fault at once (R131). -/
def stepMacro (s : State) : Host.Outcome State Fault Refusal :=
  match s.fetch with
  | .ok fetched => exec (decodeMacroWord fetched.mac.ir) fetched
  | .error f => takeFault f s

/-- One micro step (44_micro_sequencer.md R199): the instruction of the control word in MIR, which
phase 5 of the previous cycle fetched. -/
def stepMicro (s : State) : Host.Outcome State Fault Refusal :=
  exec (decodeControlWord s.mic.mir) s

/-- One step. -/
def step (s : State) : Host.Outcome State Fault Refusal :=
  match s.turn with
  | .macroMachine => stepMacro s
  | .microMachine => stepMicro s

/-- `s` with the word `w` of an opcode-table row of `nbits` bits placed where the next step finds
it, and the turn given to the machine of its format. A macro word goes to M[PC] (PC is set to 0
first where it is out of range, since nothing can be fetched there); a control word goes to MIR and
to CS[MPC], as `loadProgram` would leave it (log entry 10). -/
def State.withFetchWord (s : State) (nbits w : Nat) : State :=
  if nbits ≤ 16 then
    let s := if s.mac.pc < memoryCells then s else s.setPc 0
    (s.setCell s.mac.pc (BitVec.ofNat 16 w)).select .macroMachine
  else
    let word := BitVec.ofNat 22 w
    (s.setMic { s.mic with mir := word, cs := s.mic.cs.write s.mic.mpc.toNat word }).select
      .microMachine

end Sys2Proof.Machine
end

