-- ==== Sys2Proof/Machine/HostInterface.lean ====
section
/-!
DEFINITION. The host's commands (70_reset_and_hazards.md R230 to R235, 20_memory.md R63). Each acts
between steps and is a function of the state; `step` itself never runs one (log entry 15). A command
that raises an error to the host changes nothing and does not write STATUS (60_exceptions.md R214).
-/

namespace Sys2Proof.Machine

/-- The only error a host command raises of its own (60_exceptions.md R214). -/
inductive HostError
  | addressOutOfRange (n : Int)
deriving DecidableEq, Repr

/-! ### Stepping and running -/

/-- The state after one step. Every step answers a next state, so the other two outcomes do not
occur. -/
def State.stepped (s : State) : State :=
  match step s with
  | .next t => t
  | .fault _ => s
  | .refused _ => s

/-- Whether the last step of the machine whose turn it is ended in CONTINUE. -/
def State.isRunning (s : State) : Bool := (s.statusOf s.turn).code == .running

/-- `run()` (41_macro_cycle.md R140, 44_micro_sequencer.md R200) under a step cap: steps until an
outcome is not CONTINUE and answers the state that step left; `none` if no step within the cap ends
the run (log entry 12). -/
def State.run : Nat → State → Option State
  | 0, _ => none
  | cap + 1, s =>
    let t := s.stepped
    if t.isRunning then State.run cap t else some t

/-- The number of CONTINUE outcomes of a run under a step cap (44_micro_sequencer.md R200). -/
def State.cyclesRun : Nat → State → Nat
  | 0, _ => 0
  | cap + 1, s =>
    let t := s.stepped
    if t.isRunning then State.cyclesRun cap t + 1 else 0

/-! ### Reset and load -/

/-- Macro `reset()` (R231). -/
def State.resetMacro (s : State) : State := { s with mac := MacroMachine.reset }

/-- Micro `reset()` (R233): everything but the control store, and MIR = CS[0]. -/
def MicroMachine.resetKeepingStore (m : MicroMachine) : MicroMachine :=
  ({ MicroMachine.reset with cs := m.cs } : MicroMachine).goTo 0

/-- Micro `reset()` on the state of the block (R233). -/
def State.resetMicro (s : State) : State := s.setMic s.mic.resetKeepingStore

/-- Whether `lo <= n < bound` for a number given by the host. -/
def inBounds (n : Int) (bound : Nat) : Bool := decide (0 ≤ n ∧ n < bound)

/-- The address space that an image's words give over all-zero cells; a later entry for the same
address replaces an earlier one (30_encoding.md R89). -/
def imageMemory {n w : Nat} (image : List (BitVec n × BitVec w)) : Memory w :=
  image.foldl (fun m p => m.write p.1.toNat p.2) []

/-- Macro `loadProgram(image, start)` (R232). -/
def State.loadMacroProgram (image : List (Addr × Word)) (start : Int) (s : State) :
    Except HostError State :=
  if inBounds start memoryCells then
    .ok { s with mac := { MacroMachine.reset with mem := imageMemory image, pc := start.toNat } }
  else .error (.addressOutOfRange start)

/-- Micro `loadProgram(store, start)` (R233). -/
def State.loadMicroProgram (store : List (MicroAddr × ControlWord)) (start : Int) (s : State) :
    Except HostError State :=
  if inBounds start controlStoreEntries then
    let loaded : MicroMachine := { s.mic with cs := imageMemory store }
    .ok (s.setMic (loaded.resetKeepingStore.goTo (BitVec.ofNat 8 start.toNat)))
  else .error (.addressOutOfRange start)

/-! ### Memory -/

/-- The data memory of a machine: M or UM (20_memory.md R63). -/
def State.dataMemory (s : State) : Agent → Memory 16
  | .macroMachine => s.mac.mem
  | .microMachine => s.mic.um

/-- Replace the data memory of a machine. -/
def State.setDataMemory (s : State) (mem : Memory 16) : Agent → State
  | .macroMachine => { s with mac := { s.mac with mem := mem } }
  | .microMachine => s.setMic { s.mic with um := mem }

/-- `readMemory(a)` (20_memory.md R63): the signed view of the cell. -/
def State.readMemory (m : Agent) (a : Int) (s : State) : Except HostError Int :=
  if inBounds a memoryCells then .ok (signedView ((s.dataMemory m).read a.toNat))
  else .error (.addressOutOfRange a)

/-- `setMemory(a, n)` (20_memory.md R63): writes `wrap_16(n)`. -/
def State.setMemory (m : Agent) (a n : Int) (s : State) : Except HostError State :=
  if inBounds a memoryCells then
    .ok (s.setDataMemory ((s.dataMemory m).write a.toNat (BitVec.ofNat 16 (wrapAt 16 n))) m)
  else .error (.addressOutOfRange a)

/-! ### Registers -/

/-- The registers the host can write (70_reset_and_hazards.md R234). IR, STATUS, MIR and the buses
are not among them. -/
inductive WritableRegister
  | acc | a | b | c | d | mdr | mar | pc | mpc
deriving DecidableEq, Repr

/-- The registers the host can read (70_reset_and_hazards.md R234), MIR and STATUS apart. -/
inductive ReadableRegister
  | acc | a | b | c | d | mdr | pc | ir | mar | mpc
deriving DecidableEq, Repr

/-- `wrap_16(n)` of a host's integer (R234). -/
def wrapWord (n : Int) : Word := BitVec.ofNat 16 (wrapAt 16 n)

/-- A host's write of a register (R234): data registers wrap, PC and MPC are bounded. -/
def State.writeRegister (r : WritableRegister) (n : Int) (s : State) : Except HostError State :=
  match r with
  | .acc => .ok (s.setAcc (wrapWord n))
  | .a => .ok (s.setMic { s.mic with a := wrapWord n })
  | .b => .ok (s.setMic { s.mic with b := wrapWord n })
  | .c => .ok (s.setMic { s.mic with c := wrapWord n })
  | .d => .ok (s.setMic { s.mic with d := wrapWord n })
  | .mdr => .ok (s.setMic { s.mic with mdr := wrapWord n })
  | .mar => .ok (s.setMic { s.mic with mar := BitVec.ofNat 12 (wrapAt 12 n) })
  | .pc => if inBounds n 65536 then .ok (s.setPc n.toNat) else .error (.addressOutOfRange n)
  | .mpc =>
    if inBounds n controlStoreEntries then .ok (s.setMic (s.mic.goTo (BitVec.ofNat 8 n.toNat)))
    else .error (.addressOutOfRange n)

/-- A host's read of a register (R234): the signed view of a data register, the stored value of an
address register or IR. -/
def State.readRegister (r : ReadableRegister) (s : State) : Int :=
  match r with
  | .acc => signedView s.mac.acc
  | .a => signedView s.mic.a
  | .b => signedView s.mic.b
  | .c => signedView s.mic.c
  | .d => signedView s.mic.d
  | .mdr => signedView s.mic.mdr
  | .pc => s.mac.pc
  | .ir => s.mac.ir.toNat
  | .mar => s.mic.mar.toNat
  | .mpc => s.mic.mpc.toNat

/-! ### The command surface -/

/-- The commands of the machine public surface (70_reset_and_hazards.md R234). `run` carries the
host's step cap (R235). -/
inductive Command
  | loadMacroProgram (image : List (Addr × Word)) (start : Int)
  | loadMicroProgram (store : List (MicroAddr × ControlWord)) (start : Int)
  | step (m : Agent)
  | run (m : Agent) (cap : Nat)
  | reset (m : Agent)
  | readMemory (m : Agent) (a : Int)
  | setMemory (m : Agent) (a n : Int)
  | readRegister (r : ReadableRegister)
  | readStatus (m : Agent)
  | readMir
  | writeRegister (r : WritableRegister) (n : Int)
deriving DecidableEq, Repr

/-- What a command returns to the host. -/
inductive Reply
  | done
  | integer (n : Int)
  | controlWord (w : ControlWord)
  | status (st : Status)
  | outcome (o : StepOutcome)
  | capReached
deriving DecidableEq, Repr

/-- A command that only changes the state. -/
def changing (r : Except HostError State) : Except HostError (State × Reply) :=
  r.map fun s => (s, .done)

/-- A command that only reads an integer. -/
def reading (s : State) (r : Except HostError Int) : Except HostError (State × Reply) :=
  r.map fun n => (s, .integer n)

/-- One host command (R234). `step` and `run` first give the turn to the machine they name. A run
whose cap is reached leaves the state its last step left. -/
def State.command (c : Command) (s : State) : Except HostError (State × Reply) :=
  match c with
  | .loadMacroProgram image start => changing (s.loadMacroProgram image start)
  | .loadMicroProgram store start => changing (s.loadMicroProgram store start)
  | .step m =>
    let t := (s.select m).stepped
    .ok (t, .outcome (t.statusOf m).outcome)
  | .run m cap =>
    match (s.select m).run cap with
    | some t => .ok (t, .done)
    | none => .ok (Nat.iterate State.stepped cap (s.select m), .capReached)
  | .reset .macroMachine => .ok (s.resetMacro, .done)
  | .reset .microMachine => .ok (s.resetMicro, .done)
  | .readMemory m a => reading s (s.readMemory m a)
  | .setMemory m a n => changing (s.setMemory m a n)
  | .readRegister r => .ok (s, .integer (s.readRegister r))
  | .readStatus m => .ok (s, .status (s.statusOf m))
  | .readMir => .ok (s, .controlWord s.mic.mir)
  | .writeRegister r n => changing (s.writeRegister r n)

end Sys2Proof.Machine
end

