-- ==== Sys2Proof/Machine/AssemblerText.lean ====
section
/-!
DEFINITION. What both assemblers read text with (30_encoding.md R79 to R81, R88): whitespace,
tokens, integer tokens, and their errors. A line is a `String`, read as its characters (log
entry 13).
-/

namespace Sys2Proof.Machine

/-- The errors of the assemblers (60_exceptions.md R215). -/
inductive AsmError
  | syntaxError (lineNumber : Nat) (rawText : String)
  | addressOutOfRange (address : Int)
deriving DecidableEq, Repr

/-- Split characters into tokens at runs of separators. `current` is the token being read, in
reverse. -/
def tokensFrom (separates : Char → Bool) (current : List Char) : List Char → List (List Char)
  | [] => if current.isEmpty then [] else [current.reverse]
  | c :: cs =>
    if separates c then
      if current.isEmpty then tokensFrom separates [] cs
      else current.reverse :: tokensFrom separates [] cs
    else tokensFrom separates (c :: current) cs

/-- The tokens of a text (R79). -/
def tokensOf (separates : Char → Bool) (text : List Char) : List (List Char) :=
  tokensFrom separates [] text

/-- Remove whitespace at both ends. -/
def trimText (text : List Char) : List Char :=
  ((text.dropWhile Char.isWhitespace).reverse.dropWhile Char.isWhitespace).reverse

/-- The value of a decimal digit. -/
def digitValue (c : Char) : Option Nat :=
  if c.isDigit then some (c.toNat - '0'.toNat) else none

/-- The value of a run of digits, continuing from `acc`. -/
def digitsFrom (acc : Nat) : List Char → Option Nat
  | [] => some acc
  | c :: cs =>
    match digitValue c with
    | some d => digitsFrom (acc * 10 + d) cs
    | none => none

/-- The value of a decimal numeral of at least one digit. -/
def numeral : List Char → Option Nat
  | [] => none
  | c :: cs => digitsFrom 0 (c :: cs)

/-- An integer token, `[+-]?[0-9]+` (R81). -/
def integerToken : List Char → Option Int
  | '+' :: ds => (numeral ds).map Int.ofNat
  | '-' :: ds => (numeral ds).map fun n => -(n : Int)
  | ds => (numeral ds).map Int.ofNat

end Sys2Proof.Machine
end

