-- ==== Sys2Proof/Machine/MacroAssembler.lean ====
section
/-!
DEFINITION. The macro assembler (30_encoding.md R79 to R90): text to the image that `loadProgram`
places.
-/

namespace Sys2Proof.Machine

/-- The canonical mnemonics and their opcodes (R85). -/
def mnemonicTable : List (String × BitVec 4) :=
  [("NOP", 0), ("LOAD", 1), ("STORE", 2), ("ADD", 3), ("SUBTRACT", 4), ("MULTIPLY", 5),
   ("DIVIDE", 6), ("JUMP", 7), ("JUMPZERO", 8), ("JUMPNEG", 9), ("JUMPSUB", 10), ("RETURN", 11),
   ("LOADI", 12), ("LOADID", 13)]

/-- The aliases and the canonical mnemonics they stand for (R85). -/
def aliasTable : List (String × String) :=
  [("LATAA", "LOAD"), ("TALLENNA", "STORE"), ("LISÄÄ", "ADD"), ("VÄHENNÄ", "SUBTRACT"),
   ("KERRO", "MULTIPLY"), ("JAA", "DIVIDE"), ("HYPPY", "JUMP"), ("NOLLAHYPPY", "JUMPZERO"),
   ("MIINUSHYPPY", "JUMPNEG"), ("OHJELMA", "JUMPSUB"), ("PALAA", "RETURN")]

/-- The canonical mnemonic a token stands for: an alias is translated first (R85). -/
def canonicalMnemonic (token : List Char) : List Char :=
  match aliasTable.find? fun p => p.1.toList == token with
  | some p => p.2.toList
  | none => token

/-- The opcode of a mnemonic or alias, matched case-sensitively (R85). -/
def opcodeOfMnemonic (token : List Char) : Option (BitVec 4) :=
  (mnemonicTable.find? fun p => p.1.toList == canonicalMnemonic token).map Prod.snd

/-- The word of an instruction line: `(opcode << 12) | (VALUE mod 4096)` (R83). -/
def instructionWord (opcode : BitVec 4) (value : Int) : Word :=
  macroWordOf opcode (BitVec.ofNat 12 (wrapAt 12 value))

/-- The word of `ADDR NOP`: opcode NOP with operand 1 (R84). -/
def bareNopWord : Word := instructionWord 0 1

/-- A line that produces no code: blank, a comment, or a directive (R80). -/
def isIgnoredLine (text : List Char) : Bool :=
  let trimmed := trimText text
  trimmed.isEmpty || trimmed.head? == some '#'
    || trimmed.map Char.toUpper == "DEBUG".toList || trimmed.map Char.toUpper == "HELP".toList

/-- The address and word of a line's tokens, if the line is a data line (R82), an instruction line
(R83) or a two-token NOP line (R84). -/
def lineWord : List (List Char) → Option (Int × Word)
  | [addr, x] =>
    match integerToken addr with
    | none => none
    | some a =>
      match integerToken x with
      | some value => some (a, wrapWord value)
      | none => if x = "NOP".toList then some (a, bareNopWord) else none
  | [addr, m, x] =>
    match integerToken addr, opcodeOfMnemonic m, integerToken x with
    | some a, some opcode, some value => some (a, instructionWord opcode value)
    | _, _, _ => none
  | _ => none

/-- One line of the macro assembler: nothing, or a word at an address (R80 to R87). -/
def assembleMacroLine (lineNumber : Nat) (line : String) :
    Except AsmError (Option (Addr × Word)) :=
  if isIgnoredLine line.toList then .ok none
  else
    match lineWord (tokensOf Char.isWhitespace line.toList) with
    | none => .error (.syntaxError lineNumber line)
    | some (a, w) =>
      if inBounds a memoryCells then .ok (some (BitVec.ofNat 12 a.toNat, w))
      else .error (.addressOutOfRange a)

/-- The lines from `lineNumber` on, in order; the first failing line is the one reported (R88). -/
def assembleMacroFrom (lineNumber : Nat) : List String → Except AsmError (List (Addr × Word))
  | [] => .ok []
  | line :: lines =>
    match assembleMacroLine lineNumber line with
    | .error e => .error e
    | .ok entry =>
      match assembleMacroFrom (lineNumber + 1) lines with
      | .error e => .error e
      | .ok image => .ok (entry.toList ++ image)

/-- What the macro assembler gives: the image in line order, of which `imageMemory` lets a later entry
replace an earlier one, and the start address (R89). -/
structure MacroProgram where
  image : List (Addr × Word)
  start : Int
deriving DecidableEq, Repr

/-- The macro assembler (R79, R89). The start address is 0 unless the caller sets it. -/
def assembleMacro (lines : List String) (start : Int := 0) : Except AsmError MacroProgram :=
  (assembleMacroFrom 1 lines).map fun image => { image := image, start := start }

end Sys2Proof.Machine
end

