-- ==== Sys2Proof/Machine/MicroAssembler.lean ====
section
/-!
DEFINITION. The micro assembler (30_encoding.md R91 to R97): text to a control store.
-/

namespace Sys2Proof.Machine

/-- What the assembler carries from line to line: the address of the last code line (R92) and the
control store built so far (R95). -/
structure MicroAssembly where
  lastAddress : Option Nat
  store : Memory 22
deriving DecidableEq, Repr

/-- Whether `pattern` begins the text. -/
def startsText (pattern text : List Char) : Bool := text.take pattern.length == pattern

/-- Whether `pattern` stands anywhere in the text. -/
def occursIn (pattern : List Char) : List Char → Bool
  | [] => pattern.isEmpty
  | c :: cs => startsText pattern (c :: cs) || occursIn pattern cs

/-- A line that produces nothing: it holds `debug`, or no non-whitespace character (R91). -/
def isSilentLine (text : List Char) : Bool :=
  occursIn "debug".toList text || (trimText text).isEmpty

/-- The explicit address text and the bit list of a line: split at the first `:` (R92). -/
def splitAddress (text : List Char) : Option (List Char) × List Char :=
  if text.contains ':' then
    (some (text.takeWhile (· ≠ ':')), (text.dropWhile (· ≠ ':')).tail)
  else (none, text)

/-- Remove the legacy wrapper: a leading `cc(`, and the first `)` with everything after it (R93). -/
def stripWrapper (bitList : List Char) : List Char :=
  let trimmed := trimText bitList
  if startsText "cc(".toList trimmed then (trimmed.drop 3).takeWhile (· ≠ ')') else bitList

/-- Commas and whitespace separate the tokens of a bit list (R93). -/
def separatesBits (c : Char) : Bool := c == ',' || c.isWhitespace

/-- The integers at the head of a token list: the scan stops, without error, at the first token that
is no integer (R94). -/
def leadingIntegers : List (List Char) → List Int
  | [] => []
  | t :: ts =>
    match integerToken t with
    | some n => n :: leadingIntegers ts
    | none => []

/-- The word that sets the 1-indexed bit positions given, `none` if one lies outside 1 to 22
(R94). -/
def wordOfNumbers : List Int → Option ControlWord
  | [] => some 0
  | n :: ns =>
    if 1 ≤ n ∧ n ≤ 22 then (wordOfNumbers ns).map fun w => (1#22 <<< (22 - n.toNat)) ||| w
    else none

/-- The control word of a bit list (R93, R94). -/
def wordOfBitList (bitList : List Char) : Option ControlWord :=
  wordOfNumbers (leadingIntegers (tokensOf separatesBits (stripWrapper bitList)))

/-- The implicit address: the last code line's plus 1, starting at 0 (R92). -/
def MicroAssembly.implicitAddress (st : MicroAssembly) : Int :=
  match st.lastAddress with
  | none => 0
  | some a => a + 1

/-- The address of a code line: explicit or implicit; `none` if the explicit one is no integer
(R92). -/
def MicroAssembly.addressOf (st : MicroAssembly) : Option (List Char) → Option Int
  | some text => integerToken (trimText text)
  | none => some st.implicitAddress

/-- Set the bits of `w` at an address, keeping the bits already set there (R95). -/
def MicroAssembly.addBits (st : MicroAssembly) (a : Nat) (w : ControlWord) : MicroAssembly :=
  { lastAddress := some a, store := st.store.write a (st.store.read a ||| w) }

/-- One line of the micro assembler (R91 to R95). Within a line a syntax error is reported before an
address out of range (log entry 14). -/
def assembleMicroLine (lineNumber : Nat) (line : String) (st : MicroAssembly) :
    Except AsmError MicroAssembly :=
  if isSilentLine line.toList then .ok st
  else
    let parts := splitAddress line.toList
    match st.addressOf parts.1, wordOfBitList parts.2 with
    | some a, some w =>
      if inBounds a controlStoreEntries then .ok (st.addBits a.toNat w)
      else .error (.addressOutOfRange a)
    | _, _ => .error (.syntaxError lineNumber line)

/-- The lines from `lineNumber` on, in order; the first failing line is the one reported (R88,
R96). -/
def assembleMicroFrom (lineNumber : Nat) (st : MicroAssembly) :
    List String → Except AsmError MicroAssembly
  | [] => .ok st
  | line :: lines =>
    match assembleMicroLine lineNumber line st with
    | .error e => .error e
    | .ok st => assembleMicroFrom (lineNumber + 1) st lines

/-- The micro assembler (R91, R96): the control store, all-zero where no line names an address. -/
def assembleMicro (lines : List String) : Except AsmError (Memory 22) :=
  (assembleMicroFrom 1 { lastAddress := none, store := [] } lines).map MicroAssembly.store

/-- A control store as the words that the micro `loadProgram` takes (R96, 70_reset_and_hazards.md
R233). -/
def storeWords (store : Memory 22) : List (MicroAddr × ControlWord) :=
  store.map fun p => (BitVec.ofNat 8 p.1, p.2)

end Sys2Proof.Machine
end

