-- ==== Sys2Proof/Safety.lean ====
section
/-!
DEFINITION. What counts as a sound state of the block, and the vocabulary the statements use.
-/

namespace Sys2Proof.Machine

/-- The codes that the micro machine's STATUS may hold (60_exceptions.md R210): RUNNING and HALTED,
since no control word can fault (44_micro_sequencer.md R201). -/
abbrev StatusCode.micro (c : StatusCode) : Prop := c = .running ∨ c = .halted

/-- The macro machine's invariant: M is 4096 cells in canonical form (10_state.md R23), and PC is in
0 to 65535 (R21). -/
abbrev MacroMachine.Sound (m : MacroMachine) : Prop := Memory.wf 4096 m.mem ∧ m.pc ≤ 65535

/-- The micro machine's invariant: CS is 256 entries and UM 4096 cells in canonical form
(10_state.md R33, R34), MIR is the control word at MPC (R31), and STATUS holds code 0 or 1 (R210). -/
abbrev MicroMachine.Sound (m : MicroMachine) : Prop :=
  Memory.wf 256 m.cs ∧ Memory.wf 4096 m.um ∧ m.mir = m.controlWordAt m.mpc ∧ m.status.code.micro

/-- The invariant of the block. -/
abbrev State.Sound (s : State) : Prop := s.mac.Sound ∧ s.mic.Sound

/-- Two states agree on everything that one machine's step may read: that machine's state and the
configuration. -/
abbrev AgreeFor (m : Agent) (s t : State) : Prop :=
  s.config = t.config ∧
    match m with
    | .macroMachine => s.mac = t.mac
    | .microMachine => s.mic = t.mic

/-! ### What a control word leaves, in terms of the state before it

The statements about the micro machine say what a cycle leaves in terms of the control word `w` and
the machine `m` BEFORE the cycle, as closed expressions of 16-bit arithmetic. They name no phase of
the model. -/

/-- What phase 1 puts on V2: the highest-indexed of cb1 to cb4 wins (44_micro_sequencer.md R183). -/
def selectedV2 (w : ControlWord) (m : MicroMachine) : Word :=
  if hasBit w .cb4 then m.d
  else if hasBit w .cb3 then m.c
  else if hasBit w .cb2 then m.b
  else if hasBit w .cb1 then m.a
  else 0

/-- What phase 1 puts on V1: cb6 wins over cb5 (R184). -/
def selectedV1 (w : ControlWord) (m : MicroMachine) : Word :=
  if hasBit w .cb6 then m.mdr else if hasBit w .cb5 then 1 else 0

/-- The result of ALU-1 (R180, R185). -/
def aluOneResult (w : ControlWord) (m : MicroMachine) : Word :=
  ((if hasBit w .cb7 then -selectedV1 w m else selectedV1 w m) + selectedV2 w m) *
    (if hasBit w .cb8 then 2 else 1)

/-- A register after phase 2: the ALU-1 result if its latch bit is set, else its old value
(R186). -/
def latched (w : ControlWord) (m : MicroMachine) (latch : ControlBit) (old : Word) : Word :=
  if hasBit w latch then aluOneResult w m else old

/-- MAR after phase 2, the address of phase 3 (R187). -/
def marAfter (w : ControlWord) (m : MicroMachine) : Addr :=
  if hasBit w .cb14 then (aluOneResult w m).setWidth 12 else m.mar

/-- MDR after phase 3: the cell read if cb15 is set, else what phase 2 left (R186, R188). -/
def mdrAfter (w : ControlWord) (m : MicroMachine) : Word :=
  if hasBit w .cb15 then m.um.read (marAfter w m).toNat else latched w m .cb13 m.mdr

/-- What phase 4 puts on V1: the highest-indexed of cb17 to cb21 wins (R190 to R195). -/
def sequencingV1 (map : Lit8Map) (w : ControlWord) (m : MicroMachine) : Word :=
  if hasBit w .cb21 then ((mdrAfter w m).extractLsb' 12 4).setWidth 16
  else if hasBit w .cb20 then (if (latched w m .cb9 m.a).msb then 1 else 2)
  else if hasBit w .cb19 then (if latched w m .cb9 m.a = 0 then 1 else 2)
  else if hasBit w .cb18 then (lit8 map w).setWidth 16
  else if hasBit w .cb17 then 1
  else 0

/-- What phase 4 puts on V2 (R190, R196). -/
def sequencingV2 (w : ControlWord) (m : MicroMachine) : Word :=
  if hasBit w .cb22 then m.mpc.setWidth 16 else 0

/-- MPC after phase 5 (R196, R197). -/
def mpcAfter (map : Lit8Map) (w : ControlWord) (m : MicroMachine) : MicroAddr :=
  (sequencingV1 map w m + sequencingV2 w m).setWidth 8

/-- The state after the control word `w` has executed in the state `s` (44_micro_sequencer.md R199):
the micro machine as the expressions above say, CS unchanged, STATUS = (RUNNING, 0), and nothing
else. -/
def afterControlWord (w : ControlWord) (s : State) : State :=
  { s with
    mic :=
      { a := latched w s.mic .cb9 s.mic.a
        b := latched w s.mic .cb10 s.mic.b
        c := latched w s.mic .cb11 s.mic.c
        d := latched w s.mic .cb12 s.mic.d
        mdr := mdrAfter w s.mic
        mar := marAfter w s.mic
        v1 := sequencingV1 s.config.lit8Map w s.mic
        v2 := sequencingV2 w s.mic
        v3 := sequencingV1 s.config.lit8Map w s.mic + sequencingV2 w s.mic
        mir := s.mic.cs.read (mpcAfter s.config.lit8Map w s.mic).toNat
        mpc := mpcAfter s.config.lit8Map w s.mic
        cs := s.mic.cs
        um := if hasBit w .cb16 then
            s.mic.um.write (marAfter w s.mic).toNat (mdrAfter w s.mic) else s.mic.um
        status := { code := .running, info := 0 } } }

/-! ### What a macro step records -/

/-- The macro word the next step fetches. -/
def fetchedWord (s : State) : Word := s.mac.mem.read s.mac.pc

/-- The STATUS a macro step leaves, by the order of its checks (60_exceptions.md R217): fetch range,
zero word, extension gate, the handler's own check. -/
def macroStatusAfter (s : State) : Status :=
  let w := fetchedWord s
  let opcode := opcodeOf w
  let cell := s.mac.mem.read (operandOf w).toNat
  if 4095 < s.mac.pc then { code := .addressOutOfRange, info := s.mac.pc }
  else if w = 0 then { code := .halted, info := s.mac.pc }
  else if (opcode = 12 ∨ opcode = 13) ∧ s.config.extAllowed = false then
    { code := .extendedInstructionDisabled, info := opcode.toNat }
  else if opcode = 6 ∧ cell = 0 then { code := .divideByZero, info := (operandOf w).toNat }
  else if opcode = 13 ∧ 4095 < cell.toNat then
    { code := .addressOutOfRange, info := cell.toNat }
  else { code := .running, info := 0 }

/-! ### Operands of the FWW ALU -/

/-- An operand whose word, if it is one, satisfies the word invariant (40_alu.md R101). -/
abbrev ValidOperand : AluOperand → Prop
  | .word x => ValidWord x
  | .int _ => True

/-- The answers of the six binary operations other than divide, in the order add, subtract, multiply,
and, or, xor. -/
def binaryAnswers (a b : AluOperand) : List FWW :=
  [aluAdd a b, aluSubtract a b, aluMultiply a b, aluAnd a b, aluOr a b, aluXor a b]

/-- What those six answers are, in the same order, when the result has width `w` and mode `u` and the
operands take part by the values `x` and `y` (40_alu.md R108 to R110, R115 to R117). -/
def binaryResults (w : Nat) (u : Bool) (x y : Nat) : List FWW :=
  [{ bits := w, value := (x + y) % 2 ^ w, unsigned := u },
    { bits := w, value := (((x : Int) - y) % 2 ^ w).toNat, unsigned := u },
    { bits := w, value := x * y % 2 ^ w, unsigned := u },
    { bits := w, value := x &&& y, unsigned := u },
    { bits := w, value := x ||| y, unsigned := u },
    { bits := w, value := x ^^^ y, unsigned := u }]

end Sys2Proof.Machine
end

