-- ==== Sys2Proof/Certificates/Slice0/Obligations.lean ====
section
/-!
DEFINITION. The statements for the provers. Each docstring names the rules of spec/ it formalises.
A statement about `exec` speaks of the state after the fetch: IR already holds the word.
-/

open Sys2Proof Sys2Proof.Machine

/-! ### Encoding -/

/-- The decoder on words written out from the spec: 95_test_vectors.md 2.2, and control words from
the pattern strings of 30_encoding.md R75. -/
def Obligations.DecoderReadsTheSpecsWords : Prop :=
  decodeTableWord 16 0x0000 = some .haltWord ∧
  decodeTableWord 16 0x0001 = some (.nop 1) ∧
  decodeTableWord 16 0x1003 = some (.load 3) ∧
  decodeTableWord 16 0x6020 = some (.divide 32) ∧
  decodeTableWord 16 0xA00A = some (.jumpsub 10) ∧
  decodeTableWord 16 0xC028 = some (.loadi 40) ∧
  decodeTableWord 16 0xFFFF = some (.unknown15 4095) ∧
  decodeTableWord 24 0b0000100010000000100001 =
    some (.cb5OneToV1 (wordOfBits [.cb5, .cb9, .cb17, .cb22])) ∧
  decodeTableWord 24 0b0000000000000000000000 = some .cwHalt

/-- Decoding the encoding of a well-formed instruction gives the instruction back, for every row of
the opcode table and every operand. -/
def Obligations.DecodeOfEncodeIsTheInstruction : Prop :=
  ∀ i : Instr, i.wellFormed = true → decode (encode i) = i

/-- Every word of either format decodes to a well-formed instruction whose encoding is that word
(30_encoding.md R74, R78: no word is illegal). -/
def Obligations.EncodeOfDecodeIsTheWord : Prop :=
  ∀ e : Encoded, (decode e).wellFormed = true ∧ encode (decode e) = e

/-- The decoder's fields are the two fields that the FWW ALU's `splitFields(IR, 4, 12)` gives, so
the split never fails (41_macro_cycle.md R134). -/
def Obligations.DecodeFieldsAreSplitFields : Prop :=
  ∀ w : Word,
    splitFields { bits := 16, value := w.toNat, unsigned := true } [4, 12] =
      .ok [{ bits := 4, value := (opcodeOf w).toNat, unsigned := true },
        { bits := 12, value := (operandOf w).toNat, unsigned := true }]

/-! ### One step -/

/-- A step runs the decoded instruction. For the macro machine: with PC in range, the word at PC
goes into IR and the step is `exec` of its instruction (41_macro_cycle.md R130, R132; log entries 1
and 6). For the micro machine: the step is `exec` of the instruction of the word in MIR
(44_micro_sequencer.md R199). -/
def Obligations.StepRunsTheDecodedInstruction : Prop :=
  (∀ s : State, s.turn = .macroMachine → s.mac.pc ≤ 4095 →
    step s = exec (decode (.macroWord (s.mac.mem.read s.mac.pc)))
      { s with mac := { s.mac with ir := s.mac.mem.read s.mac.pc } }) ∧
  (∀ s : State, s.turn = .microMachine →
    step s = exec (decode (.controlWord s.mic.mir)) s)

/-- Every step of the block answers a next state (a halt and a fault are recorded in STATUS, log
entry 3) and changes neither the configuration nor whose turn it is (log entries 1 and 2). -/
def Obligations.EveryStepAnswersANextState : Prop :=
  ∀ s : State, ∃ t, step s = .next t ∧ t.config = s.config ∧ t.turn = s.turn

/-- The fetch bound check (41_macro_cycle.md R131, decision D16): STATUS records AddressOutOfRange
with the address PC, and everything else is unchanged. -/
def Obligations.FetchAboveMemoryFaults : Prop :=
  ∀ s : State, s.turn = .macroMachine → 4095 < s.mac.pc →
    step s = .next { s with
      mac := { s.mac with status := { code := .addressOutOfRange, info := s.mac.pc } } }

/-- The halt (41_macro_cycle.md R133): the zero word decodes to the halt sentinel, which changes
STATUS alone; so a step at a zero cell changes only IR and STATUS. -/
def Obligations.ZeroWordHalts : Prop :=
  decodeMacroWord 0 = .haltWord ∧
  (∀ s : State, exec .haltWord s =
    .next { s with mac := { s.mac with status := { code := .halted, info := s.mac.pc } } }) ∧
  (∀ s : State, s.turn = .macroMachine → s.mac.pc ≤ 4095 → s.mac.mem.read s.mac.pc = 0 →
    step s = .next { s with
      mac := { s.mac with ir := 0, status := { code := .halted, info := s.mac.pc } } })

/-! ### Macro instructions -/

/-- NOP and the two unknown opcodes, under every configuration (42_macro_datapath.md R151, R158,
R159, decision D14): PC advances and nothing else changes. -/
def Obligations.NopRowsOnlyAdvancePc : Prop :=
  ∀ (a : Addr) (s : State),
    (a ≠ 0 → decodeMacroWord (macroWordOf 0 a) = .nop a) ∧
    decodeMacroWord (macroWordOf 14 a) = .unknown14 a ∧
    decodeMacroWord (macroWordOf 15 a) = .unknown15 a ∧
    ∀ i ∈ [Instr.nop a, .unknown14 a, .unknown15 a],
      exec i s = .next { s with mac := { s.mac with
        pc := s.mac.pc + 1, status := { code := .running, info := 0 } } }

/-- LOAD (42_macro_datapath.md R152). -/
def Obligations.LoadCopiesTheOperandCell : Prop :=
  ∀ (a : Addr) (s : State),
    decodeMacroWord (macroWordOf 1 a) = .load a ∧
    exec (.load a) s = .next { s with mac := { s.mac with
      acc := s.mac.mem.read a.toNat, pc := s.mac.pc + 1,
      status := { code := .running, info := 0 } } }

/-- STORE (42_macro_datapath.md R153): the operand cell holds ACC (in a memory of the canonical
form), every other cell reads as before, and nothing but M, PC and STATUS changes. -/
def Obligations.StoreWritesTheOperandCell : Prop :=
  ∀ (a : Addr) (s : State),
    decodeMacroWord (macroWordOf 2 a) = .store a ∧
    ∃ t, exec (.store a) s = .next t ∧
      t = { s with mac := { s.mac with
        mem := t.mac.mem, pc := s.mac.pc + 1, status := { code := .running, info := 0 } } } ∧
      (∀ x, x ≠ a.toNat → t.mac.mem.read x = s.mac.mem.read x) ∧
      (s.mac.mem.wf 4096 → t.mac.mem.read a.toNat = s.mac.acc)

/-- ADD, SUBTRACT and MULTIPLY (42_macro_datapath.md R154, R155, R156): the 16-bit result wraps and
nothing but ACC, PC and STATUS changes. -/
def Obligations.ArithmeticWrapsAtSixteenBits : Prop :=
  ∀ (a : Addr) (s : State),
    decodeMacroWord (macroWordOf 3 a) = .add a ∧
    decodeMacroWord (macroWordOf 4 a) = .subtract a ∧
    decodeMacroWord (macroWordOf 5 a) = .multiply a ∧
    exec (.add a) s = .next { s with mac := { s.mac with
      acc := s.mac.acc + s.mac.mem.read a.toNat, pc := s.mac.pc + 1,
      status := { code := .running, info := 0 } } } ∧
    exec (.subtract a) s = .next { s with mac := { s.mac with
      acc := s.mac.acc - s.mac.mem.read a.toNat, pc := s.mac.pc + 1,
      status := { code := .running, info := 0 } } } ∧
    exec (.multiply a) s = .next { s with mac := { s.mac with
      acc := s.mac.acc * s.mac.mem.read a.toNat, pc := s.mac.pc + 1,
      status := { code := .running, info := 0 } } }

/-- DIVIDE (42_macro_datapath.md R157). By a non-zero cell: both operands are read signed, the
quotient is rounded as `DIV_ROUND` says (00_scope.md R8) and wrapped to 16 bits. By a cell that
holds 0: DivideByZero with the operand, and nothing else changes. (Decisions D5, D6 and D16.) -/
def Obligations.DivideGivesTheRoundedQuotient : Prop :=
  ∀ (a : Addr) (s : State),
    decodeMacroWord (macroWordOf 6 a) = .divide a ∧
    (s.mac.mem.read a.toNat ≠ 0 →
      exec (.divide a) s = .next { s with mac := { s.mac with
        acc := BitVec.ofInt 16
          (if s.config.divRound = .trunc then
            Int.tdiv s.mac.acc.toInt (s.mac.mem.read a.toNat).toInt
          else Int.fdiv s.mac.acc.toInt (s.mac.mem.read a.toNat).toInt)
        pc := s.mac.pc + 1, status := { code := .running, info := 0 } } }) ∧
    (s.mac.mem.read a.toNat = 0 →
      exec (.divide a) s = .next { s with mac := { s.mac with
        status := { code := .divideByZero, info := a.toNat } } })

/-- DivideByZero (60_exceptions.md R211): a step that fetches a DIVIDE of a cell holding 0 records
code 2 with the operand as info, leaves ACC, PC and M, and has the word in IR; and no other step
records it. -/
def Obligations.DivideByZeroIsRecorded : Prop :=
  (∀ (a : Addr) (s : State), s.turn = .macroMachine → s.mac.pc ≤ 4095 →
    s.mac.mem.read s.mac.pc = macroWordOf 6 a → s.mac.mem.read a.toNat = 0 →
      step s = .next { s with mac := { s.mac with
        ir := macroWordOf 6 a, status := { code := .divideByZero, info := a.toNat } } }) ∧
  (∀ s t : State, s.turn = .macroMachine → step s = .next t → t.mac.status.code = .divideByZero →
    opcodeOf (fetchedWord s) = 6 ∧ s.mac.mem.read (operandOf (fetchedWord s)).toNat = 0)

/-- JUMP (43_macro_control.md R171). -/
def Obligations.JumpSetsPc : Prop :=
  ∀ (a : Addr) (s : State),
    decodeMacroWord (macroWordOf 7 a) = .jump a ∧
    exec (.jump a) s = .next { s with mac := { s.mac with
      pc := a.toNat, status := { code := .running, info := 0 } } }

/-- JUMPZERO and JUMPNEG (43_macro_control.md R172, R173): taken exactly when ACC is 0, or its
signed view is negative; otherwise PC advances. -/
def Obligations.ConditionalJumpsTestAcc : Prop :=
  ∀ (a : Addr) (s : State),
    decodeMacroWord (macroWordOf 8 a) = .jumpzero a ∧
    decodeMacroWord (macroWordOf 9 a) = .jumpneg a ∧
    exec (.jumpzero a) s = .next { s with mac := { s.mac with
      pc := if s.mac.acc = 0 then a.toNat else s.mac.pc + 1,
      status := { code := .running, info := 0 } } } ∧
    exec (.jumpneg a) s = .next { s with mac := { s.mac with
      pc := if s.mac.acc.toInt < 0 then a.toNat else s.mac.pc + 1,
      status := { code := .running, info := 0 } } }

/-- JUMPSUB (43_macro_control.md R174): the operand cell holds PC + 1, every other cell reads as
before, and PC is the cell after it. -/
def Obligations.JumpsubStoresTheReturnAddress : Prop :=
  ∀ (a : Addr) (s : State),
    decodeMacroWord (macroWordOf 10 a) = .jumpsub a ∧
    ∃ t, exec (.jumpsub a) s = .next t ∧
      t = { s with mac := { s.mac with
        mem := t.mac.mem, pc := a.toNat + 1, status := { code := .running, info := 0 } } } ∧
      (∀ x, x ≠ a.toNat → t.mac.mem.read x = s.mac.mem.read x) ∧
      (s.mac.mem.wf 4096 → s.mac.pc ≤ 4095 →
        (t.mac.mem.read a.toNat).toNat = s.mac.pc + 1)

/-- RETURN (43_macro_control.md R175, decision D11): PC takes the stored, unsigned value. -/
def Obligations.ReturnLoadsPc : Prop :=
  ∀ (a : Addr) (s : State),
    decodeMacroWord (macroWordOf 11 a) = .ret a ∧
    exec (.ret a) s = .next { s with mac := { s.mac with
      pc := (s.mac.mem.read a.toNat).toNat, status := { code := .running, info := 0 } } }

/-- The calling convention (43_macro_control.md R176): after JUMPSUB S, a RETURN S made in any state
whose cell S still holds what the call stored goes to the cell after the JUMPSUB. -/
def Obligations.ReturnGoesBackToTheCaller : Prop :=
  ∀ (a : Addr) (s : State), s.mac.mem.wf 4096 → s.mac.pc ≤ 4095 →
    ∃ t, exec (.jumpsub a) s = .next t ∧ t.mac.pc = a.toNat + 1 ∧
      ∀ u : State, u.mac.mem.read a.toNat = t.mac.mem.read a.toNat →
        ∃ v, exec (.ret a) u = .next v ∧ v.mac.pc = s.mac.pc + 1

/-- LOADI (42_macro_datapath.md R160): with extensions allowed, ACC is the operand, zero-extended;
without, the gate (41_macro_cycle.md R136, 60_exceptions.md R212, decisions D14 and D16) takes
ExtendedInstructionDisabled and nothing else changes. -/
def Obligations.LoadiLoadsTheOperand : Prop :=
  ∀ (a : Addr) (s : State),
    decodeMacroWord (macroWordOf 12 a) = .loadi a ∧
    (s.config.extAllowed = true →
      ∃ t, exec (.loadi a) s = .next t ∧ t.mac.acc.toNat = a.toNat ∧
        t = { s with mac := { s.mac with
          acc := t.mac.acc, pc := s.mac.pc + 1, status := { code := .running, info := 0 } } }) ∧
    (s.config.extAllowed = false →
      exec (.loadi a) s = .next { s with mac := { s.mac with
        status := { code := .extendedInstructionDisabled, info := 12 } } })

/-- LOADID (42_macro_datapath.md R161): with extensions allowed, through a pointer of at most 4095
the pointed-to cell is loaded, and above 4095 the step takes AddressOutOfRange; without, it takes
ExtendedInstructionDisabled whatever the pointer. A fault changes STATUS alone. (Decisions D12, D14
and D16.) -/
def Obligations.LoadidFollowsThePointer : Prop :=
  ∀ (a : Addr) (s : State),
    decodeMacroWord (macroWordOf 13 a) = .loadid a ∧
    (s.config.extAllowed = true → (s.mac.mem.read a.toNat).toNat ≤ 4095 →
      exec (.loadid a) s = .next { s with mac := { s.mac with
        acc := s.mac.mem.read (s.mac.mem.read a.toNat).toNat, pc := s.mac.pc + 1,
        status := { code := .running, info := 0 } } }) ∧
    (s.config.extAllowed = true → 4095 < (s.mac.mem.read a.toNat).toNat →
      exec (.loadid a) s = .next { s with mac := { s.mac with
        status := { code := .addressOutOfRange, info := (s.mac.mem.read a.toNat).toNat } } }) ∧
    (s.config.extAllowed = false →
      exec (.loadid a) s = .next { s with mac := { s.mac with
        status := { code := .extendedInstructionDisabled, info := 13 } } })

/-- The extension gate (60_exceptions.md R212, 41_macro_cycle.md R136, decisions D14 and D16): with
extensions disabled a step that fetches opcode 12 or 13 changes nothing but IR and STATUS. -/
def Obligations.DisabledExtensionsAreRecorded : Prop :=
  ∀ (a : Addr) (opcode : BitVec 4) (s : State), opcode = 12 ∨ opcode = 13 →
    s.config.extAllowed = false → s.turn = .macroMachine → s.mac.pc ≤ 4095 →
    s.mac.mem.read s.mac.pc = macroWordOf opcode a →
      step s = .next { s with mac := { s.mac with
        ir := macroWordOf opcode a,
        status := { code := .extendedInstructionDisabled, info := opcode.toNat } } }

/-! ### Macro steps as a whole -/

/-- The priority of a macro step's checks (60_exceptions.md R217, decision D16): STATUS after every
macro step is the first check that applies, in the order fetch range, zero word, extension gate,
handler. -/
def Obligations.MacroStatusFollowsThePriority : Prop :=
  ∀ s : State, s.turn = .macroMachine →
    ∃ t, step s = .next t ∧ t.mac.status = macroStatusAfter s

/-- Faults and halts are precise and repeatable (60_exceptions.md R218, 41_macro_cycle.md R142): a
macro step whose outcome is not CONTINUE (decisions D15 and D16) leaves ACC, PC and M, sets IR to
the fetched word unless the fetch itself faulted, and a further step gives the same state again. -/
def Obligations.StoppedMacroStepIsPreciseAndRepeats : Prop :=
  ∀ s t : State, s.turn = .macroMachine → step s = .next t → t.mac.status.code ≠ .running →
    t = { s with mac := { s.mac with
      ir := if s.mac.pc ≤ 4095 then s.mac.mem.read s.mac.pc else s.mac.ir,
      status := t.mac.status } } ∧
    step t = .next t

/-- No macro step writes more than the operand cell, and only STORE and JUMPSUB write it
(20_memory.md R55). -/
def Obligations.MacroStepWritesOnlyTheOperandCell : Prop :=
  ∀ s t : State, s.turn = .macroMachine → step s = .next t →
    ∀ x, x ≠ (operandOf (fetchedWord s)).toNat ∨
        (opcodeOf (fetchedWord s) ≠ 2 ∧ opcodeOf (fetchedWord s) ≠ 10) →
      t.mac.mem.read x = s.mac.mem.read x

/-- Fetch is coherent with stores (20_memory.md R62): when a STORE at PC names the next cell, the
next step fetches ACC into IR and runs the instruction that ACC encodes. -/
def Obligations.StoreIsSeenByTheNextFetch : Prop :=
  ∀ (a : Addr) (s : State), s.turn = .macroMachine → s.mac.mem.wf 4096 →
    s.mac.mem.read s.mac.pc = macroWordOf 2 a → a.toNat = s.mac.pc + 1 →
      ∃ t, step s = .next t ∧ t.mac.pc = a.toNat ∧
        step t = exec (decodeMacroWord s.mac.acc) { t with mac := { t.mac with ir := s.mac.acc } }

/-! ### Control words -/

/-- The phase 1 rows (44_micro_sequencer.md R183 to R185). The cycle of a word that sets the row's
bit completes with `afterControlWord`. Seen in register A, where the word latches it (cb9): the
row's source is on its bus unless a higher-numbered bit of that bus is set, cb7 gives V2 - V1, and
cb8 doubles the sum. -/
def Obligations.PhaseOneRowsFeedTheAlu : Prop :=
  ∀ (w : ControlWord) (s : State),
    let alu (v1 v2 : Word) : Word :=
      ((if hasBit w .cb7 then -v1 else v1) + v2) * (if hasBit w .cb8 then 2 else 1)
    (∃ t, exec (.cb1AToV2 w) s = .next t ∧ t = afterControlWord w s ∧
      (hasBit w .cb9 = true → hasBit w .cb1 = true → hasBit w .cb2 = false →
        hasBit w .cb3 = false → hasBit w .cb4 = false →
        t.mic.a = alu (selectedV1 w s.mic) s.mic.a)) ∧
    (∃ t, exec (.cb2BToV2 w) s = .next t ∧ t = afterControlWord w s ∧
      (hasBit w .cb9 = true → hasBit w .cb2 = true → hasBit w .cb3 = false →
        hasBit w .cb4 = false → t.mic.a = alu (selectedV1 w s.mic) s.mic.b)) ∧
    (∃ t, exec (.cb3CToV2 w) s = .next t ∧ t = afterControlWord w s ∧
      (hasBit w .cb9 = true → hasBit w .cb3 = true → hasBit w .cb4 = false →
        t.mic.a = alu (selectedV1 w s.mic) s.mic.c)) ∧
    (∃ t, exec (.cb4DToV2 w) s = .next t ∧ t = afterControlWord w s ∧
      (hasBit w .cb9 = true → hasBit w .cb4 = true →
        t.mic.a = alu (selectedV1 w s.mic) s.mic.d)) ∧
    (∃ t, exec (.cb5OneToV1 w) s = .next t ∧ t = afterControlWord w s ∧
      (hasBit w .cb9 = true → hasBit w .cb5 = true → hasBit w .cb6 = false →
        t.mic.a = alu 1 (selectedV2 w s.mic))) ∧
    (∃ t, exec (.cb6MdrToV1 w) s = .next t ∧ t = afterControlWord w s ∧
      (hasBit w .cb9 = true → hasBit w .cb6 = true →
        t.mic.a = alu s.mic.mdr (selectedV2 w s.mic))) ∧
    (∃ t, exec (.cb7Complement w) s = .next t ∧ t = afterControlWord w s ∧
      (hasBit w .cb9 = true → hasBit w .cb7 = true → hasBit w .cb8 = false →
        t.mic.a = selectedV2 w s.mic - selectedV1 w s.mic)) ∧
    (∃ t, exec (.cb8Double w) s = .next t ∧ t = afterControlWord w s ∧
      (hasBit w .cb9 = true → hasBit w .cb8 = true → hasBit w .cb7 = false →
        t.mic.a = 2 * (selectedV1 w s.mic + selectedV2 w s.mic)))

/-- The latch rows (44_micro_sequencer.md R186, R187): a word that sets the row's bit leaves the
ALU-1 result in the row's register (MAR takes its low 12 bits), whatever other latch bits it sets;
MDR keeps it unless cb15 reads memory in the same cycle. The whole next state is `afterControlWord`,
which rests on decisions D17 (bus zeros), D18 (V1 tie-breaks), D19 (cb15 before cb16) and D20 (MPC
wrap) as well. -/
def Obligations.LatchRowsWriteTheirRegister : Prop :=
  ∀ (w : ControlWord) (s : State),
    (hasBit w .cb9 = true → ∃ t, exec (.cb9LatchA w) s = .next t ∧ t = afterControlWord w s ∧
      t.mic.a = aluOneResult w s.mic) ∧
    (hasBit w .cb10 = true → ∃ t, exec (.cb10LatchB w) s = .next t ∧ t = afterControlWord w s ∧
      t.mic.b = aluOneResult w s.mic) ∧
    (hasBit w .cb11 = true → ∃ t, exec (.cb11LatchC w) s = .next t ∧ t = afterControlWord w s ∧
      t.mic.c = aluOneResult w s.mic) ∧
    (hasBit w .cb12 = true → ∃ t, exec (.cb12LatchD w) s = .next t ∧ t = afterControlWord w s ∧
      t.mic.d = aluOneResult w s.mic) ∧
    (hasBit w .cb13 = true → ∃ t, exec (.cb13LatchMdr w) s = .next t ∧ t = afterControlWord w s ∧
      (hasBit w .cb15 = false → t.mic.mdr = aluOneResult w s.mic)) ∧
    (hasBit w .cb14 = true → ∃ t, exec (.cb14LatchMar w) s = .next t ∧ t = afterControlWord w s ∧
      t.mic.mar.toNat = (aluOneResult w s.mic).toNat % 4096)

/-- The memory rows (44_micro_sequencer.md R188, R189). cb15: MDR is the cell at MAR, MAR as phase 2
left it. cb16: that cell holds MDR, every other cell reads as before. A word without cb16 leaves UM
alone. With both bits set the read acts first (decision D19), so every cell reads as before. -/
def Obligations.MemoryRowsAccessTheCellAtMar : Prop :=
  ∀ (w : ControlWord) (s : State), s.mic.um.wf 4096 →
    (hasBit w .cb15 = true → ∃ t, exec (.cb15MemRead w) s = .next t ∧ t = afterControlWord w s ∧
      t.mic.mdr = s.mic.um.read t.mic.mar.toNat ∧
      (hasBit w .cb16 = false → t.mic.um = s.mic.um)) ∧
    (hasBit w .cb16 = true → ∃ t, exec (.cb16MemWrite w) s = .next t ∧ t = afterControlWord w s ∧
      t.mic.um.read (marAfter w s.mic).toNat = t.mic.mdr ∧
      (∀ x, x ≠ (marAfter w s.mic).toNat → t.mic.um.read x = s.mic.um.read x) ∧
      (hasBit w .cb15 = true → ∀ x, t.mic.um.read x = s.mic.um.read x))

/-- The sequencing rows (44_micro_sequencer.md R191 to R197): the next MPC, when no higher-numbered
bit of cb17 to cb21 overrides the row's. `base` is MPC if cb22 is set and 0 if not; A and MDR are
those the cycle leaves; sums wrap at 8 bits (decision D20). The whole next state is
`afterControlWord`. -/
def Obligations.SequencingRowsSelectTheNextAddress : Prop :=
  ∀ (w : ControlWord) (s : State),
    let base : MicroAddr := if hasBit w .cb22 then s.mic.mpc else 0
    (hasBit w .cb17 = true → ∃ t, exec (.cb17SeqOne w) s = .next t ∧ t = afterControlWord w s ∧
      (hasBit w .cb18 = false → hasBit w .cb19 = false → hasBit w .cb20 = false →
        hasBit w .cb21 = false → t.mic.mpc = 1 + base)) ∧
    (hasBit w .cb18 = true → ∃ t, exec (.cb18SeqLit8 w) s = .next t ∧ t = afterControlWord w s ∧
      (hasBit w .cb19 = false → hasBit w .cb20 = false → hasBit w .cb21 = false →
        t.mic.mpc = lit8 s.config.lit8Map w + base)) ∧
    (hasBit w .cb19 = true → ∃ t, exec (.cb19BranchZero w) s = .next t ∧ t = afterControlWord w s ∧
      (hasBit w .cb20 = false → hasBit w .cb21 = false →
        t.mic.mpc = (if t.mic.a = 0 then 1 else 2) + base)) ∧
    (hasBit w .cb20 = true → ∃ t, exec (.cb20BranchNeg w) s = .next t ∧ t = afterControlWord w s ∧
      (hasBit w .cb21 = false →
        t.mic.mpc = (if t.mic.a.toInt < 0 then 1 else 2) + base)) ∧
    (hasBit w .cb21 = true → ∃ t, exec (.cb21Dispatch w) s = .next t ∧ t = afterControlWord w s ∧
      t.mic.mpc.toNat = (t.mic.mdr.toNat / 4096 + base.toNat) % 256) ∧
    (hasBit w .cb22 = true → ∃ t, exec (.cb22SeqRelative w) s = .next t ∧
      t = afterControlWord w s ∧
      (hasBit w .cb17 = false → hasBit w .cb18 = false → hasBit w .cb19 = false →
        hasBit w .cb20 = false → hasBit w .cb21 = false → t.mic.mpc = s.mic.mpc))

/-- The tie-break on V2 and V1 in phase 1 (44_micro_sequencer.md R183, R184): with cb7 and cb8 clear
and the row's bus alone driven, the latched register takes the highest-indexed source (decision D18
for V1), or 0 (decision D17). -/
def Obligations.HighestSourceBitWins : Prop :=
  ∀ (w : ControlWord) (s : State), hasBit w .cb9 = true → hasBit w .cb7 = false →
    hasBit w .cb8 = false →
    ∃ t, exec (decodeControlWord w) s = .next t ∧
      (hasBit w .cb5 = false → hasBit w .cb6 = false →
        t.mic.a = if hasBit w .cb4 then s.mic.d else if hasBit w .cb3 then s.mic.c
          else if hasBit w .cb2 then s.mic.b else if hasBit w .cb1 then s.mic.a else 0) ∧
      (hasBit w .cb1 = false → hasBit w .cb2 = false → hasBit w .cb3 = false →
        hasBit w .cb4 = false →
        t.mic.a = if hasBit w .cb6 then s.mic.mdr else if hasBit w .cb5 then 1 else 0)

/-- The sequencing idioms (44_micro_sequencer.md R202): the next MPC by the bits of cb17 to cb22
that a non-zero word sets, all sums mod 256. -/
def Obligations.SequencingIdiomsGiveTheNextMpc : Prop :=
  ∀ (w : ControlWord) (s : State), w ≠ 0 →
    ∃ t, exec (decodeControlWord w) s = .next t ∧
      let bits := [ControlBit.cb17, .cb18, .cb19, .cb20, .cb21, .cb22].filter (hasBit w)
      (bits = [] → t.mic.mpc = 0) ∧
      (bits = [.cb22] → t.mic.mpc = s.mic.mpc) ∧
      (bits = [.cb17] → t.mic.mpc = 1) ∧
      (bits = [.cb17, .cb22] → t.mic.mpc = s.mic.mpc + 1) ∧
      (bits = [.cb18] → t.mic.mpc = lit8 s.config.lit8Map w) ∧
      (bits = [.cb18, .cb22] → t.mic.mpc = s.mic.mpc + lit8 s.config.lit8Map w) ∧
      (bits = [.cb19, .cb22] →
        t.mic.mpc = if t.mic.a = 0 then s.mic.mpc + 1 else s.mic.mpc + 2) ∧
      (bits = [.cb20, .cb22] →
        t.mic.mpc = if t.mic.a.msb then s.mic.mpc + 1 else s.mic.mpc + 2) ∧
      (bits = [.cb21, .cb22] →
        t.mic.mpc = s.mic.mpc + (t.mic.mdr.extractLsb' 12 4).setWidth 8)

/-- The literal of cb18 under both values of `LIT8_MAP` (30_encoding.md R77): the sum of the weights
of the bits that are set. -/
def Obligations.LiteralIsTheWeightedSum : Prop :=
  ∀ w : ControlWord,
    (lit8 .msbFirst w).toNat =
      ((ControlBit.all.filter fun b => decide (15 ≤ b.number) && hasBit w b).map
        fun b => 2 ^ (22 - b.number)).sum ∧
    (lit8 .lsbFirst w).toNat =
      ((ControlBit.all.filter fun b => decide (b.number ≤ 8) && hasBit w b).map
        fun b => 2 ^ (b.number - 1)).sum

/-- Every row that a control word matches names the same instruction: which of its set bits the
decoder names the word by (a choice of the model, log entry 5) makes no difference. -/
def Obligations.RowsOfOneWordAgree : Prop :=
  ∀ (b : ControlBit) (w : ControlWord) (s : State), hasBit w b = true →
    exec (rowOfBit b w) s = exec (decodeControlWord w) s

/-- The micro halt (44_micro_sequencer.md R198, decision D22): the zero word decodes to the halt
sentinel, which changes STATUS alone; so a step with MIR = 0 runs no phase. -/
def Obligations.ZeroControlWordHalts : Prop :=
  decodeControlWord 0 = .cwHalt ∧
  (∀ s : State, exec .cwHalt s = .next { s with mic := { s.mic with
    status := { code := .halted, info := s.mic.mpc.toNat } } }) ∧
  (∀ s : State, s.turn = .microMachine → s.mic.mir = 0 →
    step s = .next { s with mic := { s.mic with
      status := { code := .halted, info := s.mic.mpc.toNat } } })

/-- No control word can fault (44_micro_sequencer.md R201): after every micro step STATUS holds
RUNNING, or HALTED exactly when MIR was the zero word. -/
def Obligations.NoControlWordFaults : Prop :=
  ∀ s : State, s.turn = .microMachine →
    ∃ t, step s = .next t ∧
      (s.mic.mir ≠ 0 → t.mic.status = { code := .running, info := 0 }) ∧
      (s.mic.mir = 0 → t.mic.status = { code := .halted, info := s.mic.mpc.toNat })

/-- The control store is read-only while the machine runs, and a cycle ends by fetching the word at
the new MPC (20_memory.md R57, 44_micro_sequencer.md R197). -/
def Obligations.CycleFetchesFromTheUnchangedStore : Prop :=
  ∀ s t : State, step s = .next t →
    t.mic.cs = s.mic.cs ∧
    (s.turn = .microMachine → s.mic.mir ≠ 0 → t.mic.mir = t.mic.cs.read t.mic.mpc.toNat)

/-! ### Invariant and isolation -/

/-- A newly constructed block is sound under every configuration (70_reset_and_hazards.md R230), and
`State.reset` is one. -/
def Obligations.ConstructionIsSound : Prop :=
  (∀ cfg : Config, (State.construct cfg).Sound) ∧ State.reset.Sound

/-- Every step keeps the block sound: M, UM and CS stay in canonical form inside their address
spaces, PC stays in 0 to 65535 without wrapping (10_state.md R21), MIR stays the control word at MPC
(R31), and the micro STATUS holds only codes 0 and 1 (60_exceptions.md R210). -/
def Obligations.StepKeepsTheBlockSound : Prop :=
  ∀ s t : State, s.Sound → step s = .next t → t.Sound

/-- Every host command that succeeds keeps the block sound. -/
def Obligations.CommandsKeepTheBlockSound : Prop :=
  ∀ (c : Command) (s t : State) (r : Reply), s.Sound → s.command c = .ok (t, r) → t.Sound

/-- The two machines share no state (20_memory.md R60, 60_exceptions.md R223): a step of one leaves
the whole state of the other. -/
def Obligations.MachinesShareNoState : Prop :=
  ∀ s t : State, step s = .next t →
    (s.turn = .macroMachine → t.mic = s.mic) ∧ (s.turn = .microMachine → t.mac = s.mac)

/-- Determinism and isolation (70_reset_and_hazards.md R236, 20_memory.md R60): what a step does to
the machine whose turn it is depends only on that machine's state and the configuration; nothing of
the other machine can be learned from it. -/
def Obligations.StepDependsOnItsOwnMachineOnly : Prop :=
  ∀ s s' : State, s.turn = s'.turn → AgreeFor s.turn s s' →
    ∃ t t', step s = .next t ∧ step s' = .next t' ∧ AgreeFor s.turn t t'

/-! ### Memory and the host -/

/-- The canonical form: two address spaces in it that read alike are equal (the model's
representation, log entry 7). -/
def Obligations.MemoriesThatReadAlikeAreEqual : Prop :=
  ∀ (w bound : Nat) (m m' : Memory w), m.wf bound → m'.wf bound →
    (∀ a, m.read a = m'.read a) → m = m'

/-- `setMemory` and `readMemory` (20_memory.md R63, decision D25), on either machine: in range, the
cell reads back as the signed view of the wrapped value, every other cell as before, and nothing but
that machine's data memory changes; out of range, both raise AddressOutOfRange, also as commands,
whose error leaves no new state. A `readMemory` command in range changes nothing. -/
def Obligations.HostMemoryReadsBackWhatItSets : Prop :=
  ∀ (m : Agent) (a n : Int) (s : State), s.Sound →
    (0 ≤ a → a ≤ 4095 →
      (∃ t, s.setMemory m a n = .ok t ∧
        s.command (.setMemory m a n) = .ok (t, .done) ∧
        t.readMemory m a = .ok (BitVec.ofInt 16 n).toInt ∧
        (∀ b, b ≠ a → t.readMemory m b = s.readMemory m b) ∧
        (m = .macroMachine → t = { s with mac := { s.mac with mem := t.mac.mem } }) ∧
        (m = .microMachine → t = { s with mic := { s.mic with um := t.mic.um } })) ∧
      ∃ v, s.readMemory m a = .ok v ∧ s.command (.readMemory m a) = .ok (s, .integer v)) ∧
    (a < 0 ∨ 4095 < a →
      s.setMemory m a n = .error (.addressOutOfRange a) ∧
      s.command (.setMemory m a n) = .error (.addressOutOfRange a) ∧
      s.readMemory m a = .error (.addressOutOfRange a) ∧
      s.command (.readMemory m a) = .error (.addressOutOfRange a))

/-- Macro `loadProgram` (70_reset_and_hazards.md R232, decision D24): whatever the state before, the
macro machine is a fresh one holding the image, with PC at the start address; a start outside 0 to
4095 raises AddressOutOfRange. -/
def Obligations.LoadProgramGivesAFreshMachine : Prop :=
  ∀ (image : List (Addr × Word)) (start : Int) (s : State),
    (0 ≤ start → start ≤ 4095 → ∃ t, s.loadMacroProgram image start = .ok t ∧
      t = { s with mac := { MacroMachine.reset with
        mem := t.mac.mem, pc := start.toNat } } ∧
      (∀ a, a ∉ image.map Prod.fst → t.mac.mem.read a.toNat = 0) ∧
      (∀ before a w after, image = before ++ (a, w) :: after → a ∉ after.map Prod.fst →
        t.mac.mem.read a.toNat = w)) ∧
    (start < 0 ∨ 4095 < start →
      s.loadMacroProgram image start = .error (.addressOutOfRange start))

/-- Micro `loadProgram` (70_reset_and_hazards.md R233, decisions D23 and D24): a start in 0 to 255
leaves every register and UM cell at its reset value, the image's words in the control store, MPC at
the start address and the word there in MIR; any other start raises AddressOutOfRange. -/
def Obligations.MicroLoadProgramFillsTheControlStore : Prop :=
  ∀ (image : List (MicroAddr × ControlWord)) (start : Int) (s : State),
    (0 ≤ start → start ≤ 255 → ∃ t, s.loadMicroProgram image start = .ok t ∧
      t = { s with mic := { MicroMachine.reset with
        cs := t.mic.cs, mpc := BitVec.ofInt 8 start, mir := t.mic.cs.read start.toNat } } ∧
      (∀ a, a ∉ image.map Prod.fst → t.mic.cs.read a.toNat = 0) ∧
      (∀ before a w after, image = before ++ (a, w) :: after → a ∉ after.map Prod.fst →
        t.mic.cs.read a.toNat = w)) ∧
    (start < 0 ∨ 255 < start →
      s.loadMicroProgram image start = .error (.addressOutOfRange start))

/-- The two `reset()` commands (70_reset_and_hazards.md R231, R233), the micro one keeping the
control store, and what `State.reset` holds, the configuration and the turn apart (log entries 1 and
2). -/
def Obligations.ResetLeavesTheResetValues : Prop :=
  (∀ s : State, s.resetMacro = { s with mac :=
    { acc := 0, pc := 0, ir := 0, mem := [], status := { code := .running, info := 0 } } }) ∧
  (∀ s : State, s.resetMicro = { s with mic :=
    { a := 0, b := 0, c := 0, d := 0, mdr := 0, mar := 0, v1 := 0, v2 := 0, v3 := 0
      mir := s.mic.cs.read 0, mpc := 0, cs := s.mic.cs, um := []
      status := { code := .running, info := 0 } } }) ∧
  (∀ a, Memory.read ([] : Memory 16) a = 0) ∧
  State.reset.resetMacro = State.reset ∧ State.reset.resetMicro = State.reset ∧
  (∀ a, State.reset.mic.cs.read a = 0)

/-- The host's register writes and reads (70_reset_and_hazards.md R234, decision D25): a data
register reads back the signed view of the wrapped value, MAR the value mod 4096; PC and MPC take a
value in their range, MPC fetching its control word, and raise AddressOutOfRange otherwise. A write
changes nothing but its register (and MIR, for MPC). -/
def Obligations.HostRegistersReadBackWhatIsWritten : Prop :=
  ∀ (n : Int) (s : State),
    (∃ t, s.writeRegister .acc n = .ok t ∧ t.readRegister .acc = (BitVec.ofInt 16 n).toInt ∧
      t = { s with mac := { s.mac with acc := t.mac.acc } }) ∧
    (∃ t, s.writeRegister .a n = .ok t ∧ t.readRegister .a = (BitVec.ofInt 16 n).toInt ∧
      t = { s with mic := { s.mic with a := t.mic.a } }) ∧
    (∃ t, s.writeRegister .b n = .ok t ∧ t.readRegister .b = (BitVec.ofInt 16 n).toInt ∧
      t = { s with mic := { s.mic with b := t.mic.b } }) ∧
    (∃ t, s.writeRegister .c n = .ok t ∧ t.readRegister .c = (BitVec.ofInt 16 n).toInt ∧
      t = { s with mic := { s.mic with c := t.mic.c } }) ∧
    (∃ t, s.writeRegister .d n = .ok t ∧ t.readRegister .d = (BitVec.ofInt 16 n).toInt ∧
      t = { s with mic := { s.mic with d := t.mic.d } }) ∧
    (∃ t, s.writeRegister .mdr n = .ok t ∧ t.readRegister .mdr = (BitVec.ofInt 16 n).toInt ∧
      t = { s with mic := { s.mic with mdr := t.mic.mdr } }) ∧
    (∃ t, s.writeRegister .mar n = .ok t ∧ t.readRegister .mar = n % 4096 ∧
      t = { s with mic := { s.mic with mar := t.mic.mar } }) ∧
    (0 ≤ n → n ≤ 65535 → ∃ t, s.writeRegister .pc n = .ok t ∧ t.readRegister .pc = n ∧
      t = { s with mac := { s.mac with pc := n.toNat } }) ∧
    (n < 0 ∨ 65535 < n → s.writeRegister .pc n = .error (.addressOutOfRange n)) ∧
    (0 ≤ n → n ≤ 255 → ∃ t, s.writeRegister .mpc n = .ok t ∧ t.readRegister .mpc = n ∧
      t = { s with mic := { s.mic with mpc := t.mic.mpc, mir := s.mic.cs.read n.toNat } }) ∧
    (n < 0 ∨ 255 < n → s.writeRegister .mpc n = .error (.addressOutOfRange n))

/-- `run()` (41_macro_cycle.md R140, 70_reset_and_hazards.md R237): a run under a cap (log entry 12)
ends in the state of the first step, if one comes within the cap, whose outcome is not CONTINUE. -/
def Obligations.RunEndsAtTheFirstStop : Prop :=
  ∀ (cap : Nat) (s t : State),
    State.run cap s = some t ↔
      ∃ k, k < cap ∧ t = State.stepped^[k + 1] s ∧ t.isRunning = false ∧
        ∀ j, j < k → (State.stepped^[j + 1] s).isRunning = true

/-- A machine that has stopped stays as it is until the host changes it (41_macro_cycle.md R142): a
further step gives the same state. -/
def Obligations.StoppedMachineStaysStopped : Prop :=
  ∀ s : State, s.stepped.isRunning = false → s.stepped.stepped = s.stepped

/-! ### The FWW ALU -/

/-- Every operation returns words that satisfy the word invariant (40_alu.md R101). -/
def Obligations.AluResultsSatisfyTheWordInvariant : Prop :=
  (∀ (bits n : Int) (u : Bool) (x : FWW), construct bits n u = .ok x → ValidWord x) ∧
  (∀ a b : AluOperand, ValidOperand a → ValidOperand b →
    ValidWord (aluAdd a b) ∧ ValidWord (aluSubtract a b) ∧ ValidWord (aluMultiply a b) ∧
    ValidWord (aluAnd a b) ∧ ValidWord (aluOr a b) ∧ ValidWord (aluXor a b) ∧
    ∀ round q, aluFloorDivide round a b = .ok q → ValidWord q) ∧
  (∀ (x r : FWW) (k : Nat), ValidWord x →
    ValidWord (copy x) ∧ ValidWord (aluNegate x) ∧ ValidWord (aluNot x) ∧
    ValidWord (aluShiftLeft x k) ∧ ValidWord (aluShiftRight x k) ∧ ValidWord (inPlace x r)) ∧
  (∀ (x : FWW) (widths : List Int) (fields : List FWW),
    splitFields x widths = .ok fields → ∀ f ∈ fields, ValidWord f)

/-- The signed view undoes construction on the signed range, and constructing a signed view gives
the same signed view (40_alu.md R122 (a), (f)). -/
def Obligations.ConstructAndSignedViewRoundTrip : Prop :=
  ∀ (bits : Nat) (n : Int), 0 < bits →
    ∃ x, construct bits n = .ok x ∧
      (∃ y, construct bits (toSigned x) = .ok y ∧ toSigned y = toSigned x) ∧
      (-(2 ^ (bits - 1) : Int) ≤ n → n < 2 ^ (bits - 1) → toSigned x = n)

/-- Negating twice gives the word back, and negation, complement and subtraction fit together
(40_alu.md R112, R118, R122 (c)). -/
def Obligations.NegateTwiceIsTheIdentity : Prop :=
  ∀ x : FWW, ValidWord x →
    aluNegate (aluNegate x) = x ∧
    aluNot x = aluSubtract (.word (aluNegate x)) (.int 1)

/-- Subtracting and adding the same word gives the first word back (40_alu.md R122 (e)). -/
def Obligations.AddUndoesSubtract : Prop :=
  ∀ a b : FWW, ValidWord a → ValidWord b → a.bits = b.bits → a.unsigned = b.unsigned →
    aluAdd (.word (aluSubtract (.word a) (.word b))) (.word b) = a

/-- `splitFields` (40_alu.md R119, decision D7, and R122 (d)): it succeeds exactly when every width
is positive and the widths sum to the word's; then the fields have those widths and reassemble to
the word. -/
def Obligations.SplitFieldsReassembles : Prop :=
  ∀ (x : FWW) (widths : List Int), ValidWord x →
    (((∀ w ∈ widths, 0 < w) ∧ widths.sum = x.bits) ↔
      ∃ fields, splitFields x widths = .ok fields) ∧
    ∀ fields, splitFields x widths = .ok fields →
      fields.map (fun f => (f.bits : Int)) = widths ∧ (∀ f ∈ fields, f.unsigned = true) ∧
      reassemble fields = x.value

/-- `floorDivide` of any two words (40_alu.md R106, R107, R111; decisions D3, D5 and D6), each read
by its own signed view at its own width and mode. DivideByZero exactly when the divisor's stored
value is 0. Otherwise the result has the wider width, is unsigned if either word is, and holds the
quotient, truncated toward zero (floored under FLOOR), wrapped to that width. Read back: of two
signed-mode words the signed view of the truncated result is the quotient itself, but for the one
overflow, which wraps to the most negative value; of two unsigned-mode words the result is the
quotient of the naturals. -/
def Obligations.DivideTruncatesTowardZero : Prop :=
  ∀ (round : DivRound) (a b : FWW), ValidWord a → ValidWord b →
    let w := max a.bits b.bits
    (b.value = 0 → aluFloorDivide round (.word a) (.word b) = .error .divideByZero) ∧
    (b.value ≠ 0 → ∃ q, aluFloorDivide round (.word a) (.word b) = .ok q ∧ q.bits = w ∧
      q.unsigned = (a.unsigned || b.unsigned) ∧
      (q.value : Int) =
        (if round = .trunc then Int.tdiv (toSigned a) (toSigned b)
          else Int.fdiv (toSigned a) (toSigned b)) % 2 ^ w ∧
      (round = .trunc → a.unsigned = false → b.unsigned = false →
        toSigned q =
          if toSigned a = -(2 ^ (w - 1) : Int) ∧ toSigned b = -1 then -(2 ^ (w - 1) : Int)
          else Int.tdiv (toSigned a) (toSigned b)) ∧
      (a.unsigned = true → b.unsigned = true → q.value = a.value / b.value))

/-- The combination rule of two words of any widths and modes, in either order (40_alu.md R106,
R107, decision D3): the result has the wider width and is unsigned if either word is, and both words
take part by their stored values, so the narrower one is zero-extended. `binaryResults` gives the
explicit value of each operation. The bits of an `and` above the narrower width are clear (R115). -/
def Obligations.NarrowerOperandIsZeroExtended : Prop :=
  ∀ a b : FWW, ValidWord a → ValidWord b →
    binaryAnswers (.word a) (.word b) =
      binaryResults (max a.bits b.bits) (a.unsigned || b.unsigned) a.value b.value ∧
    binaryAnswers (.word b) (.word a) =
      binaryResults (max a.bits b.bits) (a.unsigned || b.unsigned) b.value a.value ∧
    (aluAnd (.word a) (.word b)).value < 2 ^ min a.bits b.bits

/-- The combination rule with plain integers, in either order (40_alu.md R106, R107, decision D3):
beside a word, an integer is wrapped to the word's width and the result has the word's width and
mode; two integers are wrapped to 16 bits and give a 16-bit unsigned word. A divide takes the
integer as the word it wraps to, in that width and mode. -/
def Obligations.PlainIntegersTakeTheWordsShape : Prop :=
  ∀ (round : DivRound) (x : FWW) (n m : Int), ValidWord x →
    let wrapped : FWW := { bits := x.bits, value := (n % 2 ^ x.bits).toNat, unsigned := x.unsigned }
    let sixteen (k : Int) : FWW := { bits := 16, value := (k % 65536).toNat, unsigned := true }
    binaryAnswers (.word x) (.int n) =
      binaryResults x.bits x.unsigned x.value (n % 2 ^ x.bits).toNat ∧
    binaryAnswers (.int n) (.word x) =
      binaryResults x.bits x.unsigned (n % 2 ^ x.bits).toNat x.value ∧
    binaryAnswers (.int n) (.int m) =
      binaryResults 16 true (n % 65536).toNat (m % 65536).toNat ∧
    aluFloorDivide round (.word x) (.int n) = aluFloorDivide round (.word x) (.word wrapped) ∧
    aluFloorDivide round (.int n) (.word x) = aluFloorDivide round (.word wrapped) (.word x) ∧
    aluFloorDivide round (.int n) (.int m) =
      aluFloorDivide round (.word (sixteen n)) (.word (sixteen m))

/-! ### The assemblers -/

/-- The tokens of an instruction line (30_encoding.md R83, R85): for every canonical mnemonic and
alias, the word is `opcode * 4096 + VALUE mod 4096`, at ADDR. -/
def Obligations.InstructionLinesAssembleToTheirWord : Prop :=
  ∀ (addr value : List Char) (a v : Int), integerToken addr = some a → integerToken value = some v →
    (∀ m opcode, (m, opcode) ∈ mnemonicTable →
      ∃ w, lineWord [addr, m.toList, value] = some (a, w) ∧
        (w.toNat : Int) = opcode.toNat * 4096 + v % 4096) ∧
    (∀ nickname m opcode, (nickname, m) ∈ aliasTable → (m, opcode) ∈ mnemonicTable →
      ∃ w, lineWord [addr, nickname.toList, value] = some (a, w) ∧
        (w.toNat : Int) = opcode.toNat * 4096 + v % 4096)

/-- The micro assembler's writes are additive (30_encoding.md R91 to R95). No line clears a bit that
an earlier line set. A silent line changes nothing. A code line whose address is in 0 to 255 and
whose bit numbers are in 1 to 22 is assembled: it leaves at its address the OR of the old word and
the bits it names, and every other address as before. Any other code line fails: with a syntax error
if its address or a bit number is wrong (whatever the address's range, log entry 14), else with
AddressOutOfRange. -/
def Obligations.MicroLinesNeverClearABit : Prop :=
  ∀ (lineNumber : Nat) (line : String) (st : MicroAssembly), st.store.wf 256 →
    let named := leadingIntegers
      (tokensOf separatesBits (stripWrapper (splitAddress line.toList).2))
    (∀ st', assembleMicroLine lineNumber line st = .ok st' →
      st'.store.wf 256 ∧
      ∀ (a : Nat) (b : ControlBit), hasBit (st.store.read a) b = true →
        hasBit (st'.store.read a) b = true) ∧
    (isSilentLine line.toList = true → assembleMicroLine lineNumber line st = .ok st) ∧
    (isSilentLine line.toList = false → ∀ a : Int,
      st.addressOf (splitAddress line.toList).1 = some a → (∀ n ∈ named, 1 ≤ n ∧ n ≤ 22) →
      (0 ≤ a → a ≤ 255 → ∃ st', assembleMicroLine lineNumber line st = .ok st' ∧
        st'.lastAddress = some a.toNat ∧
        (∀ b : ControlBit, hasBit (st'.store.read a.toNat) b =
          (hasBit (st.store.read a.toNat) b || decide ((b.number : Int) ∈ named))) ∧
        ∀ x, x ≠ a.toNat → st'.store.read x = st.store.read x) ∧
      (a < 0 ∨ 255 < a →
        assembleMicroLine lineNumber line st = .error (.addressOutOfRange a))) ∧
    (isSilentLine line.toList = false →
      st.addressOf (splitAddress line.toList).1 = none ∨ (∃ n ∈ named, n < 1 ∨ 22 < n) →
      assembleMicroLine lineNumber line st = .error (.syntaxError lineNumber line))
end

