-- ==== Sys2Proof/Laws/Alu.lean ====
section
/-!
SUPPORT. Wrapping and the divide at any width, and the FWW ALU at width 16 (40_alu.md R120): each
operation of the machines, as the 16-bit arithmetic it is. The meanings call the ALU; later proofs
cite these lemmas instead of unfolding it.
-/

namespace Sys2Proof.Machine

/-- `wrap_w` as the remainder of the integers (00_scope.md R11). -/
theorem wrapAt_cast (w : Nat) (n : Int) : (wrapAt w n : Int) = n % 2 ^ w := by
  have h : ((2 ^ w : Nat) : Int) ≠ 0 := by positivity
  rw [wrapAt, Int.toNat_of_nonneg (Int.emod_nonneg n h)]
  push_cast
  rfl

theorem wrapAt_eq_toNat (w : Nat) (n : Int) : wrapAt w n = (n % 2 ^ w).toNat := by
  rw [← wrapAt_cast, Int.toNat_natCast]

theorem wrapAt_lt (w : Nat) (n : Int) : wrapAt w n < 2 ^ w := by
  have h := Int.emod_lt_of_pos n (show (0 : Int) < 2 ^ w by positivity)
  rw [← wrapAt_cast] at h
  exact_mod_cast h

theorem toSigned_of_unsigned (x : FWW) (h : x.unsigned = true) : toSigned x = x.value := by
  simp [toSigned, h]

/-- All that the divide of two words of any widths and modes can do (40_alu.md R106, R107, R111). -/
theorem aluFloorDivide_words (round : DivRound) (a b : FWW) :
    (toSigned b = 0 ∧ aluFloorDivide round (.word a) (.word b) = .error .divideByZero) ∨
      (toSigned b ≠ 0 ∧ aluFloorDivide round (.word a) (.word b) =
        .ok { bits := max a.bits b.bits,
              value := wrapAt (max a.bits b.bits) (roundedQuotient round (toSigned a) (toSigned b)),
              unsigned := a.unsigned || b.unsigned }) := by
  by_cases h : toSigned b = 0
  · exact .inl ⟨h, if_pos h⟩
  · exact .inr ⟨h, if_neg h⟩

theorem wrapAt_sixteen (n : Int) : BitVec.ofNat 16 (wrapAt 16 n) = BitVec.ofInt 16 n := by
  apply BitVec.eq_of_toNat_eq
  simp only [wrapAt, BitVec.toNat_ofNat, BitVec.toNat_ofInt]
  omega

/-- The signed view of a machine word is its two's-complement value (R103). -/
theorem signedView_eq (v : Word) : signedView v = v.toInt := by
  have hv := v.isLt
  have hbit : v.toNat.testBit 15 = decide (32768 ≤ v.toNat) := by
    rw [Nat.testBit_eq_decide_div_mod_eq]
    congr 1
    apply propext
    omega
  simp only [signedView, toSigned, signedWord, BitVec.toInt_eq_toNat_cond, Nat.reduceSub, hbit]
  split_ifs <;> simp_all <;> omega

/-- A machine word is negative exactly when its top bit is set (R103, R173). -/
theorem isSignedNegative_eq (v : Word) : isSignedNegative v = topBitSet v := by
  unfold isSignedNegative topBitSet
  rw [signedView_eq, ← BitVec.msb_eq_getLsbD_last, BitVec.msb_eq_toInt]

theorem isSignedNegative_eq_msb (v : Word) : isSignedNegative v = v.msb := by
  rw [isSignedNegative_eq, topBitSet, BitVec.msb_eq_getLsbD_last]

theorem wordIsZero_eq (v : Word) : wordIsZero v = decide (v = 0) := by
  simp only [wordIsZero, isZero, signedWord, Bool.beq_eq_decide_eq]
  congr 1
  apply propext
  constructor
  · intro h; exact BitVec.eq_of_toNat_eq h
  · rintro rfl; rfl

theorem toWord_aluAdd (x y : Word) : toWord (aluAdd (wordOperand x) (wordOperand y)) = x + y := by
  apply BitVec.eq_of_toNat_eq
  simp [toWord, aluAdd, storedValueOp, wordOperand, operandWord, resultShape, signedWord]

theorem toWord_aluSubtract (x y : Word) :
    toWord (aluSubtract (wordOperand x) (wordOperand y)) = x - y := by
  apply BitVec.eq_of_toNat_eq
  have hx := x.isLt
  have hy := y.isLt
  simp only [toWord, aluSubtract, storedValueOp, wordOperand, operandWord, resultShape, signedWord,
    wrapAt, BitVec.toNat_ofNat, BitVec.toNat_sub]
  simp only [Nat.max_self]
  omega

theorem toWord_aluMultiply (x y : Word) :
    toWord (aluMultiply (wordOperand x) (wordOperand y)) = x * y := by
  apply BitVec.eq_of_toNat_eq
  simp [toWord, aluMultiply, storedValueOp, wordOperand, operandWord, resultShape, signedWord]

/-- All that the divide of two machine words can do: DivideByZero exactly when the divisor holds 0
(R111). -/
theorem aluFloorDivide_cases (round : DivRound) (x y : Word) :
    (y = 0 ∧ aluFloorDivide round (wordOperand x) (wordOperand y) = .error .divideByZero) ∨
      (y ≠ 0 ∧ ∃ q, aluFloorDivide round (wordOperand x) (wordOperand y) = .ok q ∧
        toWord q = BitVec.ofInt 16 (roundedQuotient round x.toInt y.toInt)) := by
  have hy : toSigned (operandWord (resultShape (wordOperand x) (wordOperand y)) (wordOperand y))
      = y.toInt := signedView_eq y
  have hx : toSigned (operandWord (resultShape (wordOperand x) (wordOperand y)) (wordOperand x))
      = x.toInt := signedView_eq x
  by_cases h : y = 0
  · exact .inl ⟨h, by simp only [aluFloorDivide, hy]; simp [h]⟩
  · have hne : y.toInt ≠ 0 := fun h0 => h (BitVec.eq_of_toInt_eq (by simpa using h0))
    refine .inr ⟨h, _, by simp only [aluFloorDivide, hx, hy]; rw [if_neg hne], ?_⟩
    exact wrapAt_sixteen _

/-- The micro ALU primitive as 16-bit arithmetic (44_micro_sequencer.md R180). -/
theorem microAlu_eq (v1 v2 : Word) (complement double : Bool) :
    microAlu v1 v2 complement double =
      ((if complement then -v1 else v1) + v2) * (if double then 2 else 1) := by
  have h1 := v1.isLt
  have h2 := v2.isLt
  apply BitVec.eq_of_toNat_eq
  cases complement <;> cases double <;>
    simp [microAlu, toWord, aluAdd, storedValueOp, wordOperand, operandWord, resultShape,
      signedWord, inPlace, aluNegate, aluShiftLeft, Nat.shiftLeft_eq, Nat.mul_mod]

/-- ALU-2 adds (44_micro_sequencer.md R196). -/
theorem microAlu_plain (v1 v2 : Word) : microAlu v1 v2 false false = v1 + v2 := by
  rw [microAlu_eq]
  simp

end Sys2Proof.Machine
end

