-- ==== Sys2Proof/Laws/Assembler.lean ====
section
/-!
SUPPORT. All that one line of the micro assembler can do.
-/

namespace Sys2Proof.Machine

theorem assembleMicroLine_of_silent (lineNumber : Nat) (line : String) (st : MicroAssembly)
    (h : isSilentLine line.toList = true) : assembleMicroLine lineNumber line st = .ok st :=
  if_pos h

/-- All that a code line can do (30_encoding.md R92 to R95). -/
theorem assembleMicroLine_cases (lineNumber : Nat) (line : String) (st : MicroAssembly)
    (h : isSilentLine line.toList = false) :
    let address := st.addressOf (splitAddress line.toList).1
    let bits := wordOfBitList (splitAddress line.toList).2
    ((address = none ∨ bits = none) ∧
      assembleMicroLine lineNumber line st = .error (.syntaxError lineNumber line)) ∨
    ∃ a w, address = some a ∧ bits = some w ∧
      ((inBounds a controlStoreEntries = true ∧
          assembleMicroLine lineNumber line st = .ok (st.addBits a.toNat w)) ∨
        (inBounds a controlStoreEntries = false ∧
          assembleMicroLine lineNumber line st = .error (.addressOutOfRange a))) := by
  intro address bits
  unfold assembleMicroLine
  rw [if_neg (by simp [h])]
  rcases ha : address with _ | a
  · exact .inl ⟨.inl rfl, by simp only [address] at ha; simp only [ha]⟩
  rcases hw : bits with _ | w
  · exact .inl ⟨.inr rfl, by simp only [address, bits] at ha hw; simp only [ha, hw]⟩
  refine .inr ⟨a, w, rfl, rfl, ?_⟩
  simp only [address, bits] at ha hw
  simp only [ha, hw]
  cases inBounds a controlStoreEntries
  · exact .inr ⟨rfl, rfl⟩
  · exact .inl ⟨rfl, rfl⟩

end Sys2Proof.Machine
end

