-- ==== Sys2Proof/Laws/Encoding.lean ====
section
/-!
SUPPORT. The two fields of a macro word (30_encoding.md R70) and the bit that names a control word.
-/

namespace Sys2Proof

theorem opcodeOf_macroWordOf (opcode : BitVec 4) (a : Addr) : opcodeOf (macroWordOf opcode a) = opcode := by
  unfold opcodeOf macroWordOf
  apply BitVec.eq_of_getLsbD_eq
  intro i hi
  simp only [BitVec.getLsbD_extractLsb', BitVec.getLsbD_or, BitVec.getLsbD_shiftLeft,
    BitVec.getLsbD_setWidth, hi, decide_true, Bool.true_and]
  simp [show 12 + i < 16 by omega, show ¬12 + i < 12 by omega, show i < 16 by omega]

theorem operandOf_macroWordOf (opcode : BitVec 4) (a : Addr) : operandOf (macroWordOf opcode a) = a := by
  unfold operandOf macroWordOf
  apply BitVec.eq_of_getLsbD_eq
  intro i hi
  simp [hi]
  omega

/-- A word is its opcode and its operand. -/
theorem macroWordOf_fields (w : Word) : macroWordOf (opcodeOf w) (operandOf w) = w := by
  unfold opcodeOf macroWordOf operandOf
  apply BitVec.eq_of_getLsbD_eq
  intro i hi
  by_cases h : i < 12
  · simp [hi, h]
  · simp [hi, h, show i - 12 < 4 by omega, show 12 + (i - 12) = i by omega]

/-- The opcode-table mask 0xF000 of a macro row selects the opcode. -/
theorem macroWordOf_masked (opcode : BitVec 4) (a : Addr) :
    macroWordOf opcode a &&& 0xF000 = macroWordOf opcode 0 := by
  have hmask : ∀ i, i < 16 → (0xF000 : Word).getLsbD i = decide (12 ≤ i) := by decide
  unfold macroWordOf
  apply BitVec.eq_of_getLsbD_eq
  intro i hi
  rw [BitVec.getLsbD_and, hmask i hi]
  by_cases h : i < 12
  · simp [h]
  · simp [hi, show 12 ≤ i by omega]

theorem setsOwnBit_of_leadsWith {b : ControlBit} {w : ControlWord} (h : leadsWith b w = true) :
    hasBit w b = true := by
  simp only [leadsWith, Bool.and_eq_true] at h
  exact h.1

end Sys2Proof
end

