-- ==== Sys2Proof/Laws/Memory.lean ====
section
/-!
SUPPORT. The laws of an address space: read after write, and that a write keeps the canonical form.
-/

namespace Sys2Proof.Machine

variable {w : Nat}

@[simp] theorem read_nil (a : Nat) : Memory.read ([] : Memory w) a = 0 := rfl

theorem read_cons (p : Nat × BitVec w) (m : Memory w) (a : Nat) :
    Memory.read (p :: m) a = if p.1 = a then p.2 else Memory.read m a := rfl

/-- A cell below every listed address reads 0. -/
theorem read_eq_zero_of_lt (m : Memory w) (a : Nat) (h : ∀ p ∈ m, a < p.1) : m.read a = 0 := by
  induction m with
  | nil => rfl
  | cons p t ih =>
    have hp : a < p.1 := h p (by simp)
    rw [read_cons, if_neg (by omega)]
    exact ih fun q hq => h q (by simp [hq])

/-- A listed pair is what its address reads. -/
theorem read_of_mem (m : Memory w) (hm : m.Pairwise (fun p q => p.1 < q.1)) (p : Nat × BitVec w)
    (hp : p ∈ m) : m.read p.1 = p.2 := by
  induction m with
  | nil => simp at hp
  | cons q t ih =>
    rw [List.pairwise_cons] at hm
    rw [read_cons]
    rcases List.mem_cons.1 hp with rfl | ht
    · simp
    · have := hm.1 p ht
      rw [if_neg (by omega)]
      exact ih hm.2 ht

/-- A write at another address leaves a cell alone. -/
theorem read_write_other (m : Memory w) (a b : Nat) (v : BitVec w) (h : b ≠ a) : (m.write a v).read b = m.read b := by
  induction m with
  | nil =>
    unfold Memory.write
    split
    · rfl
    · simp [read_cons, Ne.symm h]
  | cons p t ih =>
    obtain ⟨k, x⟩ := p
    unfold Memory.write
    split_ifs with h1 h2 h3 h4
    · rfl
    · rw [read_cons, if_neg (by simpa using Ne.symm h)]
    · rw [read_cons, if_neg (by simp only; omega)]
    · rw [read_cons, read_cons, if_neg (by simpa using Ne.symm h), if_neg (by simp only; omega)]
    · rw [read_cons, read_cons, ih]

/-- A read after a write to the same cell gives the value written. -/
theorem read_write_same (m : Memory w) (hm : m.Pairwise (fun p q => p.1 < q.1)) (a : Nat)
    (v : BitVec w) : (m.write a v).read a = v := by
  induction m with
  | nil =>
    unfold Memory.write
    split
    · simp_all
    · simp [read_cons]
  | cons p t ih =>
    obtain ⟨k, x⟩ := p
    rw [List.pairwise_cons] at hm
    unfold Memory.write
    split_ifs with h1 h2 h3 h4
    · rw [read_cons, if_neg (by simp; omega), h2]
      exact read_eq_zero_of_lt t a fun q hq => by have := hm.1 q hq; simp at this; omega
    · simp [read_cons]
    · rw [h4]
      exact read_eq_zero_of_lt t a fun q hq => by have := hm.1 q hq; simp at this; omega
    · simp [read_cons]
    · rw [read_cons, if_neg (by simp; omega)]
      exact ih hm.2

/-- Every pair of a written address space is the new one or an old one. -/
theorem mem_write (m : Memory w) (a : Nat) (v : BitVec w) (p : Nat × BitVec w)
    (h : p ∈ m.write a v) : (p = (a, v) ∧ v ≠ 0) ∨ p ∈ m := by
  induction m with
  | nil =>
    unfold Memory.write at h
    split at h <;> simp_all
  | cons q t ih =>
    obtain ⟨k, x⟩ := q
    unfold Memory.write at h
    split_ifs at h <;> simp only [List.mem_cons] at h ⊢
    · exact .inr h
    · rcases h with h | h
      · exact .inl ⟨h, ‹_›⟩
      · exact .inr h
    · exact .inr (.inr h)
    · rcases h with h | h
      · exact .inl ⟨h, ‹_›⟩
      · exact .inr (.inr h)
    · rcases h with h | h
      · exact .inr (.inl h)
      · rcases ih h with h | h
        · exact .inl h
        · exact .inr (.inr h)

theorem pairwise_write (m : Memory w) (hm : m.Pairwise (fun p q => p.1 < q.1)) (a : Nat)
    (v : BitVec w) : (m.write a v).Pairwise (fun p q => p.1 < q.1) := by
  induction m with
  | nil =>
    unfold Memory.write
    split <;> simp
  | cons q t ih =>
    obtain ⟨k, x⟩ := q
    have ht := List.pairwise_cons.1 hm
    unfold Memory.write
    split_ifs with h1 h2 h3 h4
    · exact hm
    · refine List.pairwise_cons.2 ⟨fun p hp => ?_, hm⟩
      rcases List.mem_cons.1 hp with rfl | hp
      · exact h1
      · have := ht.1 p hp
        simp at this ⊢
        omega
    · exact ht.2
    · refine List.pairwise_cons.2 ⟨fun p hp => ?_, ht.2⟩
      have := ht.1 p hp
      simp at this ⊢
      omega
    · refine List.pairwise_cons.2 ⟨fun p hp => ?_, ih ht.2⟩
      rcases mem_write t a v p hp with ⟨rfl, -⟩ | hp
      · simp
        omega
      · exact ht.1 p hp

/-- A write inside the address space keeps the canonical form. -/
theorem wf_write {bound : Nat} (m : Memory w) (hm : Memory.wf bound m) (a : Nat) (ha : a < bound)
    (v : BitVec w) : Memory.wf bound (m.write a v) := by
  refine ⟨pairwise_write m hm.1 a v, fun p hp => ?_⟩
  rcases mem_write m a v p hp with ⟨rfl, hv⟩ | hp
  · exact ⟨ha, hv⟩
  · exact hm.2 p hp

/-- An address space with nothing listed is in canonical form. -/
theorem wf_nil (bound : Nat) : Memory.wf bound ([] : Memory w) := ⟨List.Pairwise.nil, by simp⟩

end Sys2Proof.Machine
end

