-- ==== Sys2Proof/Laws/State.lean ====
section
/-!
SUPPORT. What each named update of the state leaves in each field: one lemma per field per update,
true by definition, so that later proofs unfold no record update.
-/

namespace Sys2Proof.Machine

@[simp] theorem setAcc_mac_acc (s : State) (v : Word) :
    (s.setAcc v).mac.acc = v := rfl
@[simp] theorem setAcc_mac_pc (s : State) (v : Word) :
    (s.setAcc v).mac.pc = s.mac.pc := rfl
@[simp] theorem setAcc_mac_ir (s : State) (v : Word) :
    (s.setAcc v).mac.ir = s.mac.ir := rfl
@[simp] theorem setAcc_mac_mem (s : State) (v : Word) :
    (s.setAcc v).mac.mem = s.mac.mem := rfl
@[simp] theorem setAcc_mac_status (s : State) (v : Word) :
    (s.setAcc v).mac.status = s.mac.status := rfl
@[simp] theorem setAcc_mic (s : State) (v : Word) :
    (s.setAcc v).mic = s.mic := rfl
@[simp] theorem setAcc_config (s : State) (v : Word) :
    (s.setAcc v).config = s.config := rfl
@[simp] theorem setAcc_turn (s : State) (v : Word) :
    (s.setAcc v).turn = s.turn := rfl

@[simp] theorem setPc_mac_acc (s : State) (n : Nat) :
    (s.setPc n).mac.acc = s.mac.acc := rfl
@[simp] theorem setPc_mac_pc (s : State) (n : Nat) :
    (s.setPc n).mac.pc = n := rfl
@[simp] theorem setPc_mac_ir (s : State) (n : Nat) :
    (s.setPc n).mac.ir = s.mac.ir := rfl
@[simp] theorem setPc_mac_mem (s : State) (n : Nat) :
    (s.setPc n).mac.mem = s.mac.mem := rfl
@[simp] theorem setPc_mac_status (s : State) (n : Nat) :
    (s.setPc n).mac.status = s.mac.status := rfl
@[simp] theorem setPc_mic (s : State) (n : Nat) :
    (s.setPc n).mic = s.mic := rfl
@[simp] theorem setPc_config (s : State) (n : Nat) :
    (s.setPc n).config = s.config := rfl
@[simp] theorem setPc_turn (s : State) (n : Nat) :
    (s.setPc n).turn = s.turn := rfl

@[simp] theorem setIr_mac_acc (s : State) (v : Word) :
    (s.setIr v).mac.acc = s.mac.acc := rfl
@[simp] theorem setIr_mac_pc (s : State) (v : Word) :
    (s.setIr v).mac.pc = s.mac.pc := rfl
@[simp] theorem setIr_mac_ir (s : State) (v : Word) :
    (s.setIr v).mac.ir = v := rfl
@[simp] theorem setIr_mac_mem (s : State) (v : Word) :
    (s.setIr v).mac.mem = s.mac.mem := rfl
@[simp] theorem setIr_mac_status (s : State) (v : Word) :
    (s.setIr v).mac.status = s.mac.status := rfl
@[simp] theorem setIr_mic (s : State) (v : Word) :
    (s.setIr v).mic = s.mic := rfl
@[simp] theorem setIr_config (s : State) (v : Word) :
    (s.setIr v).config = s.config := rfl
@[simp] theorem setIr_turn (s : State) (v : Word) :
    (s.setIr v).turn = s.turn := rfl

@[simp] theorem setCell_mac_acc (s : State) (a : Nat) (v : Word) :
    (s.setCell a v).mac.acc = s.mac.acc := rfl
@[simp] theorem setCell_mac_pc (s : State) (a : Nat) (v : Word) :
    (s.setCell a v).mac.pc = s.mac.pc := rfl
@[simp] theorem setCell_mac_ir (s : State) (a : Nat) (v : Word) :
    (s.setCell a v).mac.ir = s.mac.ir := rfl
@[simp] theorem setCell_mac_mem (s : State) (a : Nat) (v : Word) :
    (s.setCell a v).mac.mem = s.mac.mem.write a v := rfl
@[simp] theorem setCell_mac_status (s : State) (a : Nat) (v : Word) :
    (s.setCell a v).mac.status = s.mac.status := rfl
@[simp] theorem setCell_mic (s : State) (a : Nat) (v : Word) :
    (s.setCell a v).mic = s.mic := rfl
@[simp] theorem setCell_config (s : State) (a : Nat) (v : Word) :
    (s.setCell a v).config = s.config := rfl
@[simp] theorem setCell_turn (s : State) (a : Nat) (v : Word) :
    (s.setCell a v).turn = s.turn := rfl

@[simp] theorem setMacStatus_mac_acc (s : State) (st : Status) :
    (s.setMacStatus st).mac.acc = s.mac.acc := rfl
@[simp] theorem setMacStatus_mac_pc (s : State) (st : Status) :
    (s.setMacStatus st).mac.pc = s.mac.pc := rfl
@[simp] theorem setMacStatus_mac_ir (s : State) (st : Status) :
    (s.setMacStatus st).mac.ir = s.mac.ir := rfl
@[simp] theorem setMacStatus_mac_mem (s : State) (st : Status) :
    (s.setMacStatus st).mac.mem = s.mac.mem := rfl
@[simp] theorem setMacStatus_mac_status (s : State) (st : Status) :
    (s.setMacStatus st).mac.status = st := rfl
@[simp] theorem setMacStatus_mic (s : State) (st : Status) :
    (s.setMacStatus st).mic = s.mic := rfl
@[simp] theorem setMacStatus_config (s : State) (st : Status) :
    (s.setMacStatus st).config = s.config := rfl
@[simp] theorem setMacStatus_turn (s : State) (st : Status) :
    (s.setMacStatus st).turn = s.turn := rfl

@[simp] theorem storeAt_mac_acc (s : State) (a : Addr) (v : Word) :
    (s.storeAt a v).mac.acc = s.mac.acc := rfl
@[simp] theorem storeAt_mac_pc (s : State) (a : Addr) (v : Word) :
    (s.storeAt a v).mac.pc = s.mac.pc := rfl
@[simp] theorem storeAt_mac_ir (s : State) (a : Addr) (v : Word) :
    (s.storeAt a v).mac.ir = s.mac.ir := rfl
@[simp] theorem storeAt_mac_mem (s : State) (a : Addr) (v : Word) :
    (s.storeAt a v).mac.mem = s.mac.mem.write a.toNat v := rfl
@[simp] theorem storeAt_mac_status (s : State) (a : Addr) (v : Word) :
    (s.storeAt a v).mac.status = s.mac.status := rfl
@[simp] theorem storeAt_mic (s : State) (a : Addr) (v : Word) :
    (s.storeAt a v).mic = s.mic := rfl
@[simp] theorem storeAt_config (s : State) (a : Addr) (v : Word) :
    (s.storeAt a v).config = s.config := rfl
@[simp] theorem storeAt_turn (s : State) (a : Addr) (v : Word) :
    (s.storeAt a v).turn = s.turn := rfl

@[simp] theorem advancePc_mac_acc (s : State) :
    s.advancePc.mac.acc = s.mac.acc := rfl
@[simp] theorem advancePc_mac_pc (s : State) :
    s.advancePc.mac.pc = s.mac.pc + 1 := rfl
@[simp] theorem advancePc_mac_ir (s : State) :
    s.advancePc.mac.ir = s.mac.ir := rfl
@[simp] theorem advancePc_mac_mem (s : State) :
    s.advancePc.mac.mem = s.mac.mem := rfl
@[simp] theorem advancePc_mac_status (s : State) :
    s.advancePc.mac.status = s.mac.status := rfl
@[simp] theorem advancePc_mic (s : State) :
    s.advancePc.mic = s.mic := rfl
@[simp] theorem advancePc_config (s : State) :
    s.advancePc.config = s.config := rfl
@[simp] theorem advancePc_turn (s : State) :
    s.advancePc.turn = s.turn := rfl

@[simp] theorem continueMacro_mac_acc (s : State) :
    s.continueMacro.mac.acc = s.mac.acc := rfl
@[simp] theorem continueMacro_mac_pc (s : State) :
    s.continueMacro.mac.pc = s.mac.pc := rfl
@[simp] theorem continueMacro_mac_ir (s : State) :
    s.continueMacro.mac.ir = s.mac.ir := rfl
@[simp] theorem continueMacro_mac_mem (s : State) :
    s.continueMacro.mac.mem = s.mac.mem := rfl
@[simp] theorem continueMacro_mac_status (s : State) :
    s.continueMacro.mac.status = Status.running := rfl
@[simp] theorem continueMacro_mic (s : State) :
    s.continueMacro.mic = s.mic := rfl
@[simp] theorem continueMacro_config (s : State) :
    s.continueMacro.config = s.config := rfl
@[simp] theorem continueMacro_turn (s : State) :
    s.continueMacro.turn = s.turn := rfl

@[simp] theorem retire_mac_acc (s : State) :
    s.retire.mac.acc = s.mac.acc := rfl
@[simp] theorem retire_mac_pc (s : State) :
    s.retire.mac.pc = s.mac.pc + 1 := rfl
@[simp] theorem retire_mac_ir (s : State) :
    s.retire.mac.ir = s.mac.ir := rfl
@[simp] theorem retire_mac_mem (s : State) :
    s.retire.mac.mem = s.mac.mem := rfl
@[simp] theorem retire_mac_status (s : State) :
    s.retire.mac.status = Status.running := rfl
@[simp] theorem retire_mic (s : State) :
    s.retire.mic = s.mic := rfl
@[simp] theorem retire_config (s : State) :
    s.retire.config = s.config := rfl
@[simp] theorem retire_turn (s : State) :
    s.retire.turn = s.turn := rfl

@[simp] theorem haltMacro_mac_acc (s : State) :
    s.haltMacro.mac.acc = s.mac.acc := rfl
@[simp] theorem haltMacro_mac_pc (s : State) :
    s.haltMacro.mac.pc = s.mac.pc := rfl
@[simp] theorem haltMacro_mac_ir (s : State) :
    s.haltMacro.mac.ir = s.mac.ir := rfl
@[simp] theorem haltMacro_mac_mem (s : State) :
    s.haltMacro.mac.mem = s.mac.mem := rfl
@[simp] theorem haltMacro_mac_status (s : State) :
    s.haltMacro.mac.status = { code := .halted, info := s.mac.pc } := rfl
@[simp] theorem haltMacro_mic (s : State) :
    s.haltMacro.mic = s.mic := rfl
@[simp] theorem haltMacro_config (s : State) :
    s.haltMacro.config = s.config := rfl
@[simp] theorem haltMacro_turn (s : State) :
    s.haltMacro.turn = s.turn := rfl

@[simp] theorem setMic_mac (s : State) (m : MicroMachine) : (s.setMic m).mac = s.mac := rfl
@[simp] theorem setMic_mic (s : State) (m : MicroMachine) : (s.setMic m).mic = m := rfl
@[simp] theorem setMic_config (s : State) (m : MicroMachine) : (s.setMic m).config = s.config := rfl
@[simp] theorem setMic_turn (s : State) (m : MicroMachine) : (s.setMic m).turn = s.turn := rfl

@[simp] theorem setMicStatus_mac (s : State) (st : Status) : (s.setMicStatus st).mac = s.mac := rfl
@[simp] theorem setMicStatus_mic (s : State) (st : Status) : (s.setMicStatus st).mic = { s.mic with status := st } := rfl
@[simp] theorem setMicStatus_config (s : State) (st : Status) : (s.setMicStatus st).config = s.config := rfl
@[simp] theorem setMicStatus_turn (s : State) (st : Status) : (s.setMicStatus st).turn = s.turn := rfl

@[simp] theorem select_mac (s : State) (m : Agent) : (s.select m).mac = s.mac := rfl
@[simp] theorem select_mic (s : State) (m : Agent) : (s.select m).mic = s.mic := rfl
@[simp] theorem select_config (s : State) (m : Agent) : (s.select m).config = s.config := rfl
@[simp] theorem select_turn (s : State) (m : Agent) : (s.select m).turn = m := rfl

/-! ### The shared endings and the pre-fetch -/

/-- The pre-fetch reads M at the operand address. -/
theorem valueAt_eq (s : State) (a : Addr) : s.valueAt a = s.mac.mem.read a.toNat := rfl

/-- All that a read of M at any address can do. -/
theorem memRead_cases (s : State) (a : Nat) :
    (a < 4096 ∧ s.memRead a = .ok (s.mac.mem.read a)) ∨
      (4096 ≤ a ∧ s.memRead a = .error (.addressOutOfRange a)) := by
  unfold State.memRead memoryCells
  split
  · exact .inl ⟨‹_›, rfl⟩
  · exact .inr ⟨by omega, rfl⟩

/-- Taking a fault changes STATUS alone. -/
theorem takeFault_eq (f : Fault) (s : State) : takeFault f s = .next (s.setMacStatus f.status) := rfl

/-- All that the extension gate can do. -/
theorem extensionGate_cases (opcode : Nat) (s : State) (k : Host.Outcome State Fault Refusal) :
    (s.config.extAllowed = true ∧ extensionGate opcode s k = k) ∨
      (s.config.extAllowed = false ∧
        extensionGate opcode s k = takeFault (.extendedInstructionDisabled opcode) s) := by
  unfold extensionGate
  cases h : s.config.extAllowed
  · exact .inr ⟨rfl, by simp⟩
  · exact .inl ⟨rfl, by simp⟩

end Sys2Proof.Machine
end

