-- ==== Sys2Proof/Laws/Host.lean ====
section
/-!
SUPPORT. All that the fetch and the operations of the host's commands can do.
-/

namespace Sys2Proof.Machine

/-- All that the fetch can do (41_macro_cycle.md R131, R132). -/
theorem fetch_cases (s : State) :
    (s.mac.pc < 4096 ∧ s.fetch = .ok (s.setIr (s.mac.mem.read s.mac.pc))) ∨
      (4096 ≤ s.mac.pc ∧ s.fetch = .error (.addressOutOfRange s.mac.pc)) := by
  unfold State.fetch
  rcases memRead_cases s s.mac.pc with ⟨h, e⟩ | ⟨h, e⟩
  · exact .inl ⟨h, by rw [e]⟩
  · exact .inr ⟨h, by rw [e]⟩

theorem inBounds_iff (n : Int) (bound : Nat) : inBounds n bound = true ↔ 0 ≤ n ∧ n < bound :=
  decide_eq_true_iff

/-- A host's integer, wrapped to a machine word. -/
theorem wrapWord_eq (n : Int) : wrapWord n = BitVec.ofInt 16 n := wrapAt_sixteen n

/-- Placing an image on an address space in canonical form keeps the form. -/
theorem wf_image_onto {n w bound : Nat} (h : 2 ^ n ≤ bound) (image : List (BitVec n × BitVec w))
    (m : Memory w) (hm : Memory.wf bound m) :
    Memory.wf bound (image.foldl (fun m p => m.write p.1.toNat p.2) m) := by
  induction image generalizing m with
  | nil => exact hm
  | cons p t ih =>
    have := p.1.isLt
    exact ih _ (wf_write m hm _ (by omega) _)

theorem wf_imageMemory {n w bound : Nat} (h : 2 ^ n ≤ bound) (image : List (BitVec n × BitVec w)) :
    Memory.wf bound (imageMemory image) :=
  wf_image_onto h image [] (wf_nil bound)

end Sys2Proof.Machine
end

