-- ==== Sys2Proof/Laws/Micro.lean ====
section
/-!
SUPPORT. What one micro cycle leaves in every register, in closed form (`microCycle_eq`). Each bit's
definition first, as a conditional value of the one field it writes.
-/

namespace Sys2Proof.Machine

theorem driveV2FromA_eq (w : ControlWord) (m : MicroMachine) :
    driveV2FromA w m = { m with v2 := if hasBit w .cb1 then m.a else m.v2 } := by
  unfold driveV2FromA
  split <;> rfl

theorem driveV2FromB_eq (w : ControlWord) (m : MicroMachine) :
    driveV2FromB w m = { m with v2 := if hasBit w .cb2 then m.b else m.v2 } := by
  unfold driveV2FromB
  split <;> rfl

theorem driveV2FromC_eq (w : ControlWord) (m : MicroMachine) :
    driveV2FromC w m = { m with v2 := if hasBit w .cb3 then m.c else m.v2 } := by
  unfold driveV2FromC
  split <;> rfl

theorem driveV2FromD_eq (w : ControlWord) (m : MicroMachine) :
    driveV2FromD w m = { m with v2 := if hasBit w .cb4 then m.d else m.v2 } := by
  unfold driveV2FromD
  split <;> rfl

theorem driveV1One_eq (w : ControlWord) (m : MicroMachine) :
    driveV1One w m = { m with v1 := if hasBit w .cb5 then 1 else m.v1 } := by
  unfold driveV1One
  split <;> rfl

theorem driveV1FromMdr_eq (w : ControlWord) (m : MicroMachine) :
    driveV1FromMdr w m = { m with v1 := if hasBit w .cb6 then m.mdr else m.v1 } := by
  unfold driveV1FromMdr
  split <;> rfl

theorem latchA_eq (w : ControlWord) (m : MicroMachine) :
    latchA w m = { m with a := if hasBit w .cb9 then m.v3 else m.a } := by
  unfold latchA
  split <;> rfl

theorem latchB_eq (w : ControlWord) (m : MicroMachine) :
    latchB w m = { m with b := if hasBit w .cb10 then m.v3 else m.b } := by
  unfold latchB
  split <;> rfl

theorem latchC_eq (w : ControlWord) (m : MicroMachine) :
    latchC w m = { m with c := if hasBit w .cb11 then m.v3 else m.c } := by
  unfold latchC
  split <;> rfl

theorem latchD_eq (w : ControlWord) (m : MicroMachine) :
    latchD w m = { m with d := if hasBit w .cb12 then m.v3 else m.d } := by
  unfold latchD
  split <;> rfl

theorem latchMdr_eq (w : ControlWord) (m : MicroMachine) :
    latchMdr w m = { m with mdr := if hasBit w .cb13 then m.v3 else m.mdr } := by
  unfold latchMdr
  split <;> rfl

theorem latchMar_eq (w : ControlWord) (m : MicroMachine) :
    latchMar w m = { m with mar := if hasBit w .cb14 then marOfBus m.v3 else m.mar } := by
  unfold latchMar
  split <;> rfl

theorem readUm_eq (w : ControlWord) (m : MicroMachine) :
    readUm w m = { m with mdr := if hasBit w .cb15 then m.um.read m.mar.toNat else m.mdr } := by
  unfold readUm
  split <;> rfl

theorem writeUm_eq (w : ControlWord) (m : MicroMachine) :
    writeUm w m = { m with um := if hasBit w .cb16 then m.um.write m.mar.toNat m.mdr else m.um } := by
  unfold writeUm
  split <;> rfl

theorem nextOne_eq (w : ControlWord) (m : MicroMachine) :
    nextOne w m = { m with v1 := if hasBit w .cb17 then 1 else m.v1 } := by
  unfold nextOne
  split <;> rfl

theorem nextLiteral_eq (map : Lit8Map) (w : ControlWord) (m : MicroMachine) :
    nextLiteral map w m = { m with v1 := if hasBit w .cb18 then literalOnBus (lit8 map w) else m.v1 } := by
  unfold nextLiteral
  split <;> rfl

theorem nextOnZero_eq (w : ControlWord) (m : MicroMachine) :
    nextOnZero w m = { m with v1 := if hasBit w .cb19 then (if wordIsZero m.a then 1 else 2) else m.v1 } := by
  unfold nextOnZero
  split <;> rfl

theorem nextOnNegative_eq (w : ControlWord) (m : MicroMachine) :
    nextOnNegative w m = { m with v1 := if hasBit w .cb20 then (if isSignedNegative m.a then 1 else 2) else m.v1 } := by
  unfold nextOnNegative
  split <;> rfl

theorem nextOpcode_eq (w : ControlWord) (m : MicroMachine) :
    nextOpcode w m = { m with v1 := if hasBit w .cb21 then opcodeOnBus m.mdr else m.v1 } := by
  unfold nextOpcode
  split <;> rfl

theorem nextRelative_eq (w : ControlWord) (m : MicroMachine) :
    nextRelative w m = { m with v2 := if hasBit w .cb22 then mpcOnBus m.mpc else m.v2 } := by
  unfold nextRelative
  split <;> rfl

/-- What phase 1 leaves: the buses and nothing else. -/
theorem phase1_eq (w : ControlWord) (m : MicroMachine) :
    phase1 w m =
      { m with v1 := selectedV1 w m, v2 := selectedV2 w m, v3 := aluOneResult w m } := by
  simp only [phase1, aluOne, driveV2FromA_eq, driveV2FromB_eq, driveV2FromC_eq, driveV2FromD_eq,
    driveV1One_eq, driveV1FromMdr_eq, resetBuses, microAlu_eq]
  rfl

/-- What phases 1 and 2 leave: the latched registers. -/
theorem phase2_eq (w : ControlWord) (m : MicroMachine) :
    phase2 w (phase1 w m) =
      { m with
        v1 := selectedV1 w m, v2 := selectedV2 w m, v3 := aluOneResult w m
        a := latched w m .cb9 m.a, b := latched w m .cb10 m.b, c := latched w m .cb11 m.c
        d := latched w m .cb12 m.d, mdr := latched w m .cb13 m.mdr, mar := marAfter w m } := by
  simp only [phase2, phase1_eq, latchA_eq, latchB_eq, latchC_eq, latchD_eq, latchMdr_eq, latchMar_eq]
  rfl

/-- What phases 1 to 3 leave: the memory access. -/
theorem phase3_eq (w : ControlWord) (m : MicroMachine) :
    phase3 w (phase2 w (phase1 w m)) =
      { m with
        v1 := selectedV1 w m, v2 := selectedV2 w m, v3 := aluOneResult w m
        a := latched w m .cb9 m.a, b := latched w m .cb10 m.b, c := latched w m .cb11 m.c
        d := latched w m .cb12 m.d, mdr := mdrAfter w m, mar := marAfter w m
        um := if hasBit w .cb16 then m.um.write (marAfter w m).toNat (mdrAfter w m) else m.um } := by
  simp only [phase3, phase2_eq, readUm_eq, writeUm_eq]
  rfl

/-- What phases 1 to 4 leave: the buses of the next-address select. -/
theorem phase4_eq (map : Lit8Map) (w : ControlWord) (m : MicroMachine) :
    phase4 map w (phase3 w (phase2 w (phase1 w m))) =
      { m with
        v1 := sequencingV1 map w m, v2 := sequencingV2 w m
        v3 := sequencingV1 map w m + sequencingV2 w m
        a := latched w m .cb9 m.a, b := latched w m .cb10 m.b, c := latched w m .cb11 m.c
        d := latched w m .cb12 m.d, mdr := mdrAfter w m, mar := marAfter w m
        um := if hasBit w .cb16 then m.um.write (marAfter w m).toNat (mdrAfter w m) else m.um } := by
  simp only [phase4, aluTwo, phase3_eq, nextOne_eq, nextLiteral_eq, nextOnZero_eq, nextOnNegative_eq,
    nextOpcode_eq, nextRelative_eq, resetBuses, microAlu_plain, wordIsZero_eq, isSignedNegative_eq_msb,
    decide_eq_true_eq]
  rfl

/-- What one micro cycle leaves in every register (44_micro_sequencer.md R181 to R197). -/
theorem microCycle_eq (map : Lit8Map) (w : ControlWord) (m : MicroMachine) :
    microCycle map w m =
      { a := latched w m .cb9 m.a, b := latched w m .cb10 m.b, c := latched w m .cb11 m.c
        d := latched w m .cb12 m.d, mdr := mdrAfter w m, mar := marAfter w m
        v1 := sequencingV1 map w m, v2 := sequencingV2 w m
        v3 := sequencingV1 map w m + sequencingV2 w m
        mir := m.cs.read (mpcAfter map w m).toNat, mpc := mpcAfter map w m, cs := m.cs
        um := if hasBit w .cb16 then m.um.write (marAfter w m).toNat (mdrAfter w m) else m.um
        status := m.status } := by
  simp only [microCycle, phase4_eq]
  rfl

end Sys2Proof.Machine
end

