-- ==== Sys2Proof/Laws/PerInstr.lean ====
section
/-!
SUPPORT. The family `EncodedFormat`: the encoding of a well-formed instruction fits its own row of
spec/opcode_table.json, written here from the table (its mask and match for a macro row, its one
fixed bit for a control-word row).
-/

namespace Sys2Proof.Laws

/-- What a row of the opcode table fixes of its words. -/
inductive RowPattern
  /-- A MACRO16 row: `w &&& mask = bits`. -/
  | masked (mask bits : Word)
  /-- A CW22 row with one character 1 in its pattern. -/
  | controlBit (b : ControlBit)
  /-- The CW22 row of zeros. -/
  | zeroControlWord
deriving DecidableEq, Repr

/-- Whether a word fits a row. -/
def RowPattern.fits : RowPattern → Encoded → Prop
  | .masked mask bits, .macroWord w => w &&& mask = bits
  | .controlBit b, .controlWord w => hasBit w b = true
  | .zeroControlWord, .controlWord w => w = 0
  | _, _ => False

/-- The row of an instruction. -/
def rowPattern : Instr → RowPattern
  | .haltWord => .masked 0xFFFF 0x0000
  | .nop _ => .masked 0xF000 0x0000
  | .load _ => .masked 0xF000 0x1000
  | .store _ => .masked 0xF000 0x2000
  | .add _ => .masked 0xF000 0x3000
  | .subtract _ => .masked 0xF000 0x4000
  | .multiply _ => .masked 0xF000 0x5000
  | .divide _ => .masked 0xF000 0x6000
  | .jump _ => .masked 0xF000 0x7000
  | .jumpzero _ => .masked 0xF000 0x8000
  | .jumpneg _ => .masked 0xF000 0x9000
  | .jumpsub _ => .masked 0xF000 0xA000
  | .ret _ => .masked 0xF000 0xB000
  | .loadi _ => .masked 0xF000 0xC000
  | .loadid _ => .masked 0xF000 0xD000
  | .unknown14 _ => .masked 0xF000 0xE000
  | .unknown15 _ => .masked 0xF000 0xF000
  | .cb1AToV2 _ => .controlBit .cb1
  | .cb2BToV2 _ => .controlBit .cb2
  | .cb3CToV2 _ => .controlBit .cb3
  | .cb4DToV2 _ => .controlBit .cb4
  | .cb5OneToV1 _ => .controlBit .cb5
  | .cb6MdrToV1 _ => .controlBit .cb6
  | .cb7Complement _ => .controlBit .cb7
  | .cb8Double _ => .controlBit .cb8
  | .cb9LatchA _ => .controlBit .cb9
  | .cb10LatchB _ => .controlBit .cb10
  | .cb11LatchC _ => .controlBit .cb11
  | .cb12LatchD _ => .controlBit .cb12
  | .cb13LatchMdr _ => .controlBit .cb13
  | .cb14LatchMar _ => .controlBit .cb14
  | .cb15MemRead _ => .controlBit .cb15
  | .cb16MemWrite _ => .controlBit .cb16
  | .cb17SeqOne _ => .controlBit .cb17
  | .cb18SeqLit8 _ => .controlBit .cb18
  | .cb19BranchZero _ => .controlBit .cb19
  | .cb20BranchNeg _ => .controlBit .cb20
  | .cb21Dispatch _ => .controlBit .cb21
  | .cb22SeqRelative _ => .controlBit .cb22
  | .cwHalt => .zeroControlWord

/-- A well-formed instruction's encoding fits its row. -/
def EncodedFormat.Statement (i : Instr) : Prop :=
  i.wellFormed = true → (rowPattern i).fits (encode i)

theorem EncodedFormat.haltWord : EncodedFormat.Statement .haltWord := fun _ => rfl
theorem EncodedFormat.nop (a : Addr) : EncodedFormat.Statement (.nop a) :=
  fun _ => macroWordOf_masked 0 a
theorem EncodedFormat.load (a : Addr) : EncodedFormat.Statement (.load a) :=
  fun _ => macroWordOf_masked 1 a
theorem EncodedFormat.store (a : Addr) : EncodedFormat.Statement (.store a) :=
  fun _ => macroWordOf_masked 2 a
theorem EncodedFormat.add (a : Addr) : EncodedFormat.Statement (.add a) :=
  fun _ => macroWordOf_masked 3 a
theorem EncodedFormat.subtract (a : Addr) : EncodedFormat.Statement (.subtract a) :=
  fun _ => macroWordOf_masked 4 a
theorem EncodedFormat.multiply (a : Addr) : EncodedFormat.Statement (.multiply a) :=
  fun _ => macroWordOf_masked 5 a
theorem EncodedFormat.divide (a : Addr) : EncodedFormat.Statement (.divide a) :=
  fun _ => macroWordOf_masked 6 a
theorem EncodedFormat.jump (a : Addr) : EncodedFormat.Statement (.jump a) :=
  fun _ => macroWordOf_masked 7 a
theorem EncodedFormat.jumpzero (a : Addr) : EncodedFormat.Statement (.jumpzero a) :=
  fun _ => macroWordOf_masked 8 a
theorem EncodedFormat.jumpneg (a : Addr) : EncodedFormat.Statement (.jumpneg a) :=
  fun _ => macroWordOf_masked 9 a
theorem EncodedFormat.jumpsub (a : Addr) : EncodedFormat.Statement (.jumpsub a) :=
  fun _ => macroWordOf_masked 10 a
theorem EncodedFormat.ret (a : Addr) : EncodedFormat.Statement (.ret a) :=
  fun _ => macroWordOf_masked 11 a
theorem EncodedFormat.loadi (a : Addr) : EncodedFormat.Statement (.loadi a) :=
  fun _ => macroWordOf_masked 12 a
theorem EncodedFormat.loadid (a : Addr) : EncodedFormat.Statement (.loadid a) :=
  fun _ => macroWordOf_masked 13 a
theorem EncodedFormat.unknown14 (a : Addr) : EncodedFormat.Statement (.unknown14 a) :=
  fun _ => macroWordOf_masked 14 a
theorem EncodedFormat.unknown15 (a : Addr) : EncodedFormat.Statement (.unknown15 a) :=
  fun _ => macroWordOf_masked 15 a
theorem EncodedFormat.cb1AToV2 (w : ControlWord) : EncodedFormat.Statement (.cb1AToV2 w) :=
  setsOwnBit_of_leadsWith
theorem EncodedFormat.cb2BToV2 (w : ControlWord) : EncodedFormat.Statement (.cb2BToV2 w) :=
  setsOwnBit_of_leadsWith
theorem EncodedFormat.cb3CToV2 (w : ControlWord) : EncodedFormat.Statement (.cb3CToV2 w) :=
  setsOwnBit_of_leadsWith
theorem EncodedFormat.cb4DToV2 (w : ControlWord) : EncodedFormat.Statement (.cb4DToV2 w) :=
  setsOwnBit_of_leadsWith
theorem EncodedFormat.cb5OneToV1 (w : ControlWord) : EncodedFormat.Statement (.cb5OneToV1 w) :=
  setsOwnBit_of_leadsWith
theorem EncodedFormat.cb6MdrToV1 (w : ControlWord) : EncodedFormat.Statement (.cb6MdrToV1 w) :=
  setsOwnBit_of_leadsWith
theorem EncodedFormat.cb7Complement (w : ControlWord) : EncodedFormat.Statement (.cb7Complement w) :=
  setsOwnBit_of_leadsWith
theorem EncodedFormat.cb8Double (w : ControlWord) : EncodedFormat.Statement (.cb8Double w) :=
  setsOwnBit_of_leadsWith
theorem EncodedFormat.cb9LatchA (w : ControlWord) : EncodedFormat.Statement (.cb9LatchA w) :=
  setsOwnBit_of_leadsWith
theorem EncodedFormat.cb10LatchB (w : ControlWord) : EncodedFormat.Statement (.cb10LatchB w) :=
  setsOwnBit_of_leadsWith
theorem EncodedFormat.cb11LatchC (w : ControlWord) : EncodedFormat.Statement (.cb11LatchC w) :=
  setsOwnBit_of_leadsWith
theorem EncodedFormat.cb12LatchD (w : ControlWord) : EncodedFormat.Statement (.cb12LatchD w) :=
  setsOwnBit_of_leadsWith
theorem EncodedFormat.cb13LatchMdr (w : ControlWord) : EncodedFormat.Statement (.cb13LatchMdr w) :=
  setsOwnBit_of_leadsWith
theorem EncodedFormat.cb14LatchMar (w : ControlWord) : EncodedFormat.Statement (.cb14LatchMar w) :=
  setsOwnBit_of_leadsWith
theorem EncodedFormat.cb15MemRead (w : ControlWord) : EncodedFormat.Statement (.cb15MemRead w) :=
  setsOwnBit_of_leadsWith
theorem EncodedFormat.cb16MemWrite (w : ControlWord) : EncodedFormat.Statement (.cb16MemWrite w) :=
  setsOwnBit_of_leadsWith
theorem EncodedFormat.cb17SeqOne (w : ControlWord) : EncodedFormat.Statement (.cb17SeqOne w) :=
  setsOwnBit_of_leadsWith
theorem EncodedFormat.cb18SeqLit8 (w : ControlWord) : EncodedFormat.Statement (.cb18SeqLit8 w) :=
  setsOwnBit_of_leadsWith
theorem EncodedFormat.cb19BranchZero (w : ControlWord) : EncodedFormat.Statement (.cb19BranchZero w) :=
  setsOwnBit_of_leadsWith
theorem EncodedFormat.cb20BranchNeg (w : ControlWord) : EncodedFormat.Statement (.cb20BranchNeg w) :=
  setsOwnBit_of_leadsWith
theorem EncodedFormat.cb21Dispatch (w : ControlWord) : EncodedFormat.Statement (.cb21Dispatch w) :=
  setsOwnBit_of_leadsWith
theorem EncodedFormat.cb22SeqRelative (w : ControlWord) : EncodedFormat.Statement (.cb22SeqRelative w) :=
  setsOwnBit_of_leadsWith
theorem EncodedFormat.cwHalt : EncodedFormat.Statement .cwHalt := fun _ => rfl

end Sys2Proof.Laws
end

