-- ==== Sys2Proof/Tests/Slice0.lean ====
section
/-!
SUPPORT. Tests. Expected results are the spec's: the worked examples and derived vectors of
95_test_vectors.md, by their ids, and the encodings of 30_encoding.md. The theorems named
`witness_<statement>` show that a statement's hypotheses can be met, clause by clause.
-/

namespace Sys2Proof.Machine.Tests

/-! ### Well-formedness -/

/-- The zero word is the halt sentinel, not NOP 0 (30_encoding.md R73). -/
theorem test_nop_zero_is_ill_formed : (Instr.nop 0).wellFormed = false := by decide

/-- A row's own bit must be set. -/
theorem test_cb5_without_its_bit_is_ill_formed :
    (Instr.cb5OneToV1 (wordOfBits [.cb9])).wellFormed = false := by decide

/-- A word is named by its lowest-numbered set bit (log entry 5). -/
theorem test_cb5_below_cb1_is_ill_formed :
    (Instr.cb5OneToV1 (wordOfBits [.cb1, .cb5])).wellFormed = false := by decide

theorem test_well_formed_terms :
    (Instr.nop 1).wellFormed = true ∧ Instr.haltWord.wellFormed = true ∧
    (Instr.cb5OneToV1 (wordOfBits [.cb5, .cb9])).wellFormed = true := by decide

/-! ### Decoding: one word of every row, written out from its pattern -/

/-- 30_encoding.md R72, R73. -/
theorem test_decode_macro_rows :
    decodeTableWord 16 0b0000000000000000 = some .haltWord ∧
    decodeTableWord 16 0b0000100000100101 = some (.nop 0b100000100101) ∧
    decodeTableWord 16 0b0001100000100101 = some (.load 0b100000100101) ∧
    decodeTableWord 16 0b0010100000100101 = some (.store 0b100000100101) ∧
    decodeTableWord 16 0b0011100000100101 = some (.add 0b100000100101) ∧
    decodeTableWord 16 0b0100100000100101 = some (.subtract 0b100000100101) ∧
    decodeTableWord 16 0b0101100000100101 = some (.multiply 0b100000100101) ∧
    decodeTableWord 16 0b0110100000100101 = some (.divide 0b100000100101) ∧
    decodeTableWord 16 0b0111100000100101 = some (.jump 0b100000100101) ∧
    decodeTableWord 16 0b1000100000100101 = some (.jumpzero 0b100000100101) ∧
    decodeTableWord 16 0b1001100000100101 = some (.jumpneg 0b100000100101) ∧
    decodeTableWord 16 0b1010100000100101 = some (.jumpsub 0b100000100101) ∧
    decodeTableWord 16 0b1011100000100101 = some (.ret 0b100000100101) ∧
    decodeTableWord 16 0b1100100000100101 = some (.loadi 0b100000100101) ∧
    decodeTableWord 16 0b1101100000100101 = some (.loadid 0b100000100101) ∧
    decodeTableWord 16 0b1110100000100101 = some (.unknown14 0b100000100101) ∧
    decodeTableWord 16 0b1111100000100101 = some (.unknown15 0b100000100101) := by decide

/-- 30_encoding.md R75, R78. -/
theorem test_decode_control_rows :
    decodeTableWord 24 0b1000000000000000000000 = some (.cb1AToV2 0b1000000000000000000000) ∧
    decodeTableWord 24 0b0100000000000000000000 = some (.cb2BToV2 0b0100000000000000000000) ∧
    decodeTableWord 24 0b0010000000000000000000 = some (.cb3CToV2 0b0010000000000000000000) ∧
    decodeTableWord 24 0b0001000000000000000000 = some (.cb4DToV2 0b0001000000000000000000) ∧
    decodeTableWord 24 0b0000100000000000000000 = some (.cb5OneToV1 0b0000100000000000000000) ∧
    decodeTableWord 24 0b0000010000000000000000 = some (.cb6MdrToV1 0b0000010000000000000000) ∧
    decodeTableWord 24 0b0000001000000000000000 = some (.cb7Complement 0b0000001000000000000000) ∧
    decodeTableWord 24 0b0000000100000000000000 = some (.cb8Double 0b0000000100000000000000) ∧
    decodeTableWord 24 0b0000000010000000000000 = some (.cb9LatchA 0b0000000010000000000000) ∧
    decodeTableWord 24 0b0000000001000000000000 = some (.cb10LatchB 0b0000000001000000000000) ∧
    decodeTableWord 24 0b0000000000100000000000 = some (.cb11LatchC 0b0000000000100000000000) ∧
    decodeTableWord 24 0b0000000000010000000000 = some (.cb12LatchD 0b0000000000010000000000) ∧
    decodeTableWord 24 0b0000000000001000000000 = some (.cb13LatchMdr 0b0000000000001000000000) ∧
    decodeTableWord 24 0b0000000000000100000000 = some (.cb14LatchMar 0b0000000000000100000000) ∧
    decodeTableWord 24 0b0000000000000010000000 = some (.cb15MemRead 0b0000000000000010000000) ∧
    decodeTableWord 24 0b0000000000000001000000 = some (.cb16MemWrite 0b0000000000000001000000) ∧
    decodeTableWord 24 0b0000000000000000100000 = some (.cb17SeqOne 0b0000000000000000100000) ∧
    decodeTableWord 24 0b0000000000000000010000 = some (.cb18SeqLit8 0b0000000000000000010000) ∧
    decodeTableWord 24 0b0000000000000000001000 = some (.cb19BranchZero 0b0000000000000000001000) ∧
    decodeTableWord 24 0b0000000000000000000100 = some (.cb20BranchNeg 0b0000000000000000000100) ∧
    decodeTableWord 24 0b0000000000000000000010 = some (.cb21Dispatch 0b0000000000000000000010) ∧
    decodeTableWord 24 0b0000000000000000000001 = some (.cb22SeqRelative 0b0000000000000000000001) ∧
    decodeTableWord 24 0b0000000000000000000000 = some .cwHalt := by decide

/-- Bits beyond a word of the format (log entry 11). -/
theorem test_decode_refuses_longer_words :
    decodeTableWord 16 0x10001 = none ∧
    decodeTableWord 24 0x400000 = none ∧
    decodeBits 16 0x10001 = .error .bitsBeyondMacroWord := by decide

/-- 95_test_vectors.md L1-7: the pattern of {5, 9, 17, 22}. -/
theorem test_control_word_pattern :
    wordOfBits [.cb5, .cb9, .cb17, .cb22] = 0b0000100010000000100001 := by decide

/-- 95_test_vectors.md U-27, U-29, U-30. -/
theorem test_literal :
    lit8 .lsbFirst (wordOfBits [.cb1, .cb2, .cb18]) = 3 ∧
    lit8 .msbFirst (wordOfBits [.cb1, .cb2, .cb18]) = 16 ∧
    lit8 .msbFirst (wordOfBits [.cb15, .cb16, .cb17, .cb18, .cb22]) = 241 := by decide

/-! ### Macro steps -/

/-- A macro machine about to step. -/
def macroState (pc : Nat) (acc : Word) (mem : Memory 16) (ext : Bool := true)
    (round : DivRound := .trunc) : State :=
  { State.construct { extAllowed := ext, lit8Map := .msbFirst, divRound := round } with
    mac := { MacroMachine.reset with acc := acc, pc := pc, mem := mem } }

/-- ACC, PC, IR and STATUS. -/
def macroView (s : State) : Word × Nat × Word × Status :=
  (s.mac.acc, s.mac.pc, s.mac.ir, s.mac.status)

/-- M-HALT. -/
theorem test_halt_word :
    macroView (macroState 6 0x000F []).stepped = (0x000F, 6, 0, ⟨.halted, 6⟩) := by decide

/-- M-NOP2. -/
theorem test_nop :
    macroView (macroState 0 0 [(0, 0x0FFF)]).stepped = (0, 1, 0x0FFF, Status.running) := by decide

/-- M-LD2. -/
theorem test_load_negative_cell :
    macroView (macroState 0 5 [(0, 0x1003), (3, 0x8000)]).stepped = (0x8000, 1, 0x1003, Status.running) := by decide

/-- M-LD3. -/
theorem test_load_own_word :
    macroView (macroState 5 0 [(5, 0x1005)]).stepped = (0x1005, 6, 0x1005, Status.running) := by decide

/-- M-ST1. -/
theorem test_store :
    macroView (macroState 2 0x000F [(2, 0x2005)]).stepped = (0x000F, 3, 0x2005, Status.running) ∧
    (macroState 2 0x000F [(2, 0x2005)]).stepped.mac.mem = [(2, 0x2005), (5, 0x000F)] := by decide

/-- M-ST2. -/
theorem test_store_zero :
    macroView (macroState 2 0 [(2, 0x2003), (3, 0x1009)]).stepped = (0, 3, 0x2003, Status.running) ∧
    (macroState 2 0 [(2, 0x2003), (3, 0x1009)]).stepped.mac.mem = [(2, 0x2003)] := by decide

/-- M-ADD2. -/
theorem test_add_overflow :
    macroView (macroState 1 0x7FFF [(1, 0x3004), (4, 1)]).stepped = (0x8000, 2, 0x3004, Status.running) := by decide

/-- M-ADD3. -/
theorem test_add_carry :
    macroView (macroState 1 0xFFFF [(1, 0x3004), (4, 0xFFFF)]).stepped = (0xFFFE, 2, 0x3004, Status.running) := by decide

/-- M-SUB2. -/
theorem test_subtract_borrow :
    macroView (macroState 6 0 [(6, 0x4016), (22, 1)]).stepped = (0xFFFF, 7, 0x4016, Status.running) := by decide

/-- M-SUB3. -/
theorem test_subtract_overflow :
    macroView (macroState 6 0x8000 [(6, 0x4016), (22, 1)]).stepped = (0x7FFF, 7, 0x4016, Status.running) := by decide

/-- M-MUL1. -/
theorem test_multiply :
    macroView (macroState 3 0x007B [(3, 0x5029), (41, 0x03E8)]).stepped = (0xE078, 4, 0x5029, Status.running) := by decide

/-- M-MUL4. -/
theorem test_multiply_overflow :
    macroView (macroState 3 0x8000 [(3, 0x5029), (41, 0xFFFF)]).stepped = (0x8000, 4, 0x5029, Status.running) := by decide

/-- M-DIV1, M-DIV2, M-DIV5, M-DIV8, and M-DIV1F, M-DIV4F under FLOOR. -/
theorem test_divide :
    (macroState 11 0xFFF9 [(11, 0x6020), (32, 2)]).stepped.mac.acc = 0xFFFD ∧
    (macroState 11 7 [(11, 0x6020), (32, 0xFFFE)]).stepped.mac.acc = 0xFFFD ∧
    (macroState 11 0x8000 [(11, 0x6020), (32, 0xFFFF)]).stepped.mac.acc = 0x8000 ∧
    (macroState 11 0x0064 [(11, 0x6020), (32, 0xB00A)]).stepped.mac.acc = 0 ∧
    (macroState 11 0xFFF9 [(11, 0x6020), (32, 2)] true .floor).stepped.mac.acc = 0xFFFC ∧
    (macroState 11 0xFFFF [(11, 0x6020), (32, 2)] true .floor).stepped.mac.acc = 0xFFFF := by
  decide

/-- M-DIV6. -/
theorem test_divide_by_zero :
    macroView (macroState 11 9 [(11, 0x6020)]).stepped = (9, 11, 0x6020, ⟨.divideByZero, 32⟩) ∧
    (macroState 11 9 [(11, 0x6020)]).stepped.mac.mem = [(11, 0x6020)] := by decide

/-- M-JMP2. -/
theorem test_jump_to_itself :
    macroView (macroState 8 0 [(8, 0x7008)]).stepped = (0, 8, 0x7008, Status.running) := by decide

/-- M-JZ1. -/
theorem test_jumpzero_taken :
    macroView (macroState 1 0 [(1, 0x8009)]).stepped = (0, 9, 0x8009, Status.running) := by decide

/-- M-JZ3. -/
theorem test_jumpzero_not_taken :
    macroView (macroState 1 0x8000 [(1, 0x8009)]).stepped = (0x8000, 2, 0x8009, Status.running) := by decide

/-- M-JN4. -/
theorem test_jumpneg_taken :
    macroView (macroState 3 0x8000 [(3, 0x9005)]).stepped = (0x8000, 5, 0x9005, Status.running) := by decide

/-- M-JN3. -/
theorem test_jumpneg_not_taken :
    macroView (macroState 3 0x7FFF [(3, 0x9005)]).stepped = (0x7FFF, 4, 0x9005, Status.running) := by decide

/-- M-JS2. -/
theorem test_jumpsub_last_cell :
    macroView (macroState 1 0 [(1, 0xAFFF)]).stepped = (0, 4096, 0xAFFF, Status.running) ∧
    (macroState 1 0 [(1, 0xAFFF)]).stepped.mac.mem = [(1, 0xAFFF), (4095, 2)] := by decide

/-- M-JS3. -/
theorem test_jumpsub_itself :
    macroView (macroState 7 0 [(7, 0xA007)]).stepped = (0, 8, 0xA007, Status.running) ∧
    (macroState 7 0 [(7, 0xA007)]).stepped.mac.mem = [(7, 8)] := by decide

/-- M-RT1. -/
theorem test_return :
    macroView (macroState 12 0 [(10, 2), (12, 0xB00A)]).stepped = (0, 2, 0xB00A, Status.running) := by decide

/-- M-RT2. -/
theorem test_return_above_memory :
    macroView (macroState 12 0 [(10, 0x8000), (12, 0xB00A)]).stepped = (0, 32768, 0xB00A, Status.running) := by decide

/-- M-LI2. -/
theorem test_loadi :
    macroView (macroState 0 0 [(0, 0xCFFF)]).stepped = (0x0FFF, 1, 0xCFFF, Status.running) := by decide

/-- M-LI4. -/
theorem test_loadi_disabled :
    macroView (macroState 0 0x1111 [(0, 0xC028)] false).stepped = (0x1111, 0, 0xC028, ⟨.extendedInstructionDisabled, 12⟩) := by decide

/-- M-LID1. -/
theorem test_loadid :
    macroView (macroState 2 0 [(2, 0xD032), (40, 0x007B), (50, 0x0028)]).stepped = (0x007B, 3, 0xD032, Status.running) := by decide

/-- M-LID2. -/
theorem test_loadid_above_memory :
    macroView (macroState 2 7 [(2, 0xD032), (50, 0x1000)]).stepped = (7, 2, 0xD032, ⟨.addressOutOfRange, 4096⟩) := by decide

/-- M-PRI1. -/
theorem test_loadid_disabled_first :
    macroView (macroState 2 7 [(2, 0xD032), (50, 0x1000)] false).stepped = (7, 2, 0xD032, ⟨.extendedInstructionDisabled, 13⟩) := by decide

/-- M-U14D. -/
theorem test_unknown14_disabled :
    macroView (macroState 9 0 [(9, 0xE123)] false).stepped = (0, 10, 0xE123, Status.running) := by decide

/-- M-U15. -/
theorem test_unknown15 :
    macroView (macroState 0 0 [(0, 0xFFFF)]).stepped = (0, 1, 0xFFFF, Status.running) := by decide

/-- M-FETCH. -/
theorem test_fetch_above_memory :
    macroView (macroState 4096 5 []).stepped = (5, 4096, 0, ⟨.addressOutOfRange, 4096⟩) := by decide

/-! ### Micro steps -/

/-- A micro machine about to run the word of the given bits. -/
def microState (bits : List ControlBit) (m : MicroMachine) (map : Lit8Map := .msbFirst) : State :=
  { State.construct { extAllowed := true, lit8Map := map, divRound := .trunc } with
    mic := { m with mir := wordOfBits bits }, turn := .microMachine }

/-- The micro machine after one cycle. -/
def afterCycle (bits : List ControlBit) (m : MicroMachine) (map : Lit8Map := .msbFirst) :
    MicroMachine :=
  (microState bits m map).stepped.mic

/-- U-8. -/
theorem test_cb1_adds_to_its_register :
    (afterCycle [.cb1, .cb5, .cb9, .cb17, .cb22] { MicroMachine.reset with a := 0x7FFF }).a = 0x8000 ∧
    (afterCycle [.cb1, .cb5, .cb9, .cb17, .cb22] { MicroMachine.reset with a := 0x7FFF }).mpc = 1 := by decide

/-- U-3. -/
theorem test_cb2_passes_through_complement :
    (afterCycle [.cb2, .cb7, .cb9] { MicroMachine.reset with b := 0x1234 }).a = 0x1234 := by decide

/-- U-1. -/
theorem test_cb3_wins_over_cb1 :
    (afterCycle [.cb1, .cb3, .cb9] { MicroMachine.reset with a := 5, c := 9 }).a = 9 := by decide

/-- 44_micro_sequencer.md R183, example. -/
theorem test_cb4_wins :
    (afterCycle [.cb1, .cb4, .cb9] { MicroMachine.reset with a := 5, d := 9 }).a = 9 := by decide

/-- U-4. -/
theorem test_cb5_decrements :
    (afterCycle [.cb1, .cb5, .cb7, .cb9] MicroMachine.reset).a = 0xFFFF := by decide

/-- U-2. -/
theorem test_cb6_wins_over_cb5 :
    (afterCycle [.cb5, .cb6, .cb9] { MicroMachine.reset with mdr := 0x0040 }).a = 0x0040 := by decide

/-- U-6. -/
theorem test_cb7_and_cb8 :
    (afterCycle [.cb1, .cb5, .cb7, .cb8, .cb11] { MicroMachine.reset with a := 5 }).c = 8 := by decide

/-- U-5. -/
theorem test_cb8_doubles_the_sum :
    (afterCycle [.cb1, .cb5, .cb8, .cb10] { MicroMachine.reset with a := 3 }).b = 8 := by decide

/-- U-9. -/
theorem test_cb8_wraps :
    (afterCycle [.cb1, .cb8, .cb9, .cb17, .cb22] { MicroMachine.reset with a := 0x8000 }).a = 0 := by decide

/-- U-26. -/
theorem test_cb9_clears :
    (afterCycle [.cb9] { MicroMachine.reset with a := 3, mpc := 7 }).a = 0 ∧
    (afterCycle [.cb9] { MicroMachine.reset with a := 3, mpc := 7 }).mpc = 0 := by decide

/-- 44_micro_sequencer.md R186, example, with V3 = 7 from B. -/
theorem test_cb12_latches_with_cb9 :
    (afterCycle [.cb2, .cb9, .cb12] { MicroMachine.reset with b := 7 }).a = 7 ∧
    (afterCycle [.cb2, .cb9, .cb12] { MicroMachine.reset with b := 7 }).d = 7 := by decide

/-- U-12. -/
theorem test_cb13_is_stored :
    (afterCycle [.cb5, .cb13, .cb14, .cb16] { MicroMachine.reset with um := [(1, 9)] }).mdr = 1 ∧
    (afterCycle [.cb5, .cb13, .cb14, .cb16] { MicroMachine.reset with um := [(1, 9)] }).mar = 1 ∧
    (afterCycle [.cb5, .cb13, .cb14, .cb16] { MicroMachine.reset with um := [(1, 9)] }).um = [(1, 1)] := by decide

/-- U-10. -/
theorem test_cb14_drops_high_bits :
    (afterCycle [.cb1, .cb14] { MicroMachine.reset with a := 0xF005 }).mar = 5 := by decide

/-- U-13. -/
theorem test_cb15_replaces_the_latch :
    (afterCycle [.cb5, .cb13, .cb14, .cb15] { MicroMachine.reset with um := [(1, 9)] }).mdr = 9 ∧
    (afterCycle [.cb5, .cb13, .cb14, .cb15] { MicroMachine.reset with um := [(1, 9)] }).mar = 1 := by decide

/-- U-11. -/
theorem test_cb15_before_cb16 :
    (afterCycle [.cb15, .cb16, .cb17, .cb22] { MicroMachine.reset with mar := 7, mdr := 0x11, um := [(7, 0x22)] }).mdr = 0x22 ∧
    (afterCycle [.cb15, .cb16, .cb17, .cb22] { MicroMachine.reset with mar := 7, mdr := 0x11, um := [(7, 0x22)] }).um = [(7, 0x22)] ∧
    (afterCycle [.cb15, .cb16, .cb17, .cb22] { MicroMachine.reset with mar := 7, mdr := 0x11, um := [(7, 0x22)] }).mpc = 1 := by decide

/-- 44_micro_sequencer.md R189, example. -/
theorem test_cb16_writes :
    (afterCycle [.cb16] { MicroMachine.reset with mar := 5, mdr := 4 }).um = [(5, 4)] := by decide

/-- U-24. -/
theorem test_cb17_absolute :
    (afterCycle [.cb17] { MicroMachine.reset with mpc := 7 }).mpc = 1 := by decide

/-- 44_micro_sequencer.md R202: MPC + 1 at 255 is 0. -/
theorem test_cb17_wraps :
    (afterCycle [.cb17, .cb22] { MicroMachine.reset with mpc := 255 }).mpc = 0 := by decide

/-- U-27, U-29, U-30, under both values of LIT8_MAP. -/
theorem test_cb18_literal :
    (afterCycle [.cb1, .cb2, .cb18] MicroMachine.reset .lsbFirst).mpc = 3 ∧
    (afterCycle [.cb1, .cb2, .cb18] MicroMachine.reset .msbFirst).mpc = 16 ∧
    (afterCycle [.cb1, .cb2, .cb3, .cb4, .cb5, .cb6, .cb7, .cb8, .cb18, .cb22]
      { MicroMachine.reset with mpc := 200 } .lsbFirst).mpc = 199 ∧
    (afterCycle [.cb1, .cb2, .cb3, .cb4, .cb5, .cb6, .cb7, .cb8, .cb18, .cb22]
      { MicroMachine.reset with mpc := 200 } .msbFirst).mpc = 217 ∧
    (afterCycle [.cb15, .cb16, .cb17, .cb18, .cb22]
      { MicroMachine.reset with mpc := 200 } .msbFirst).mpc = 185 := by decide

/-- U-31, under both values of LIT8_MAP. -/
theorem test_cb21_overrides_cb18 :
    (afterCycle [.cb17, .cb18, .cb21, .cb22] { MicroMachine.reset with mpc := 3, mdr := 0x2000 }
      .lsbFirst).mpc = 5 ∧
    (afterCycle [.cb17, .cb18, .cb21, .cb22] { MicroMachine.reset with mpc := 3, mdr := 0x2000 }
      .msbFirst).mpc = 5 := by decide

/-- U-16. -/
theorem test_cb19_tests_the_latched_register :
    (afterCycle [.cb5, .cb9, .cb19, .cb22] MicroMachine.reset).a = 1 ∧
    (afterCycle [.cb5, .cb9, .cb19, .cb22] MicroMachine.reset).mpc = 2 := by decide

/-- U-14. -/
theorem test_cb19_on_zero :
    (afterCycle [.cb19, .cb22] { MicroMachine.reset with mpc := 4 }).mpc = 5 := by decide

/-- U-17. -/
theorem test_cb20_on_negative :
    (afterCycle [.cb20, .cb22] { MicroMachine.reset with a := 0xFFFF, mpc := 10 }).mpc = 11 := by decide

/-- U-19. -/
theorem test_cb20_wins_over_cb19 :
    (afterCycle [.cb19, .cb20, .cb22] { MicroMachine.reset with mpc := 10 }).mpc = 12 := by decide

/-- U-22. -/
theorem test_cb21_reads_the_loaded_word :
    (afterCycle [.cb14, .cb15, .cb21, .cb22] { MicroMachine.reset with um := [(0, 0x6000)] }).mdr = 0x6000 ∧
    (afterCycle [.cb14, .cb15, .cb21, .cb22] { MicroMachine.reset with um := [(0, 0x6000)] }).mpc = 6 := by decide

/-- U-21. -/
theorem test_cb21_wraps :
    (afterCycle [.cb21, .cb22] { MicroMachine.reset with mpc := 250, mdr := 0xF000 }).mpc = 9 := by decide

/-- U-23. -/
theorem test_cb22_alone_repeats :
    (afterCycle [.cb22] { MicroMachine.reset with mpc := 7 }).mpc = 7 := by decide

/-- A cycle ends by fetching the word at the new MPC (L1-7, first cycle). -/
theorem test_cycle_fetches :
    (afterCycle [.cb5, .cb9, .cb17, .cb22] { MicroMachine.reset with cs := [(1, 0x2A)] }).mir = 0x2A := by
  decide

/-- The halt vectors of section 2.4: start address 9 with CS[9] = 0. -/
theorem test_cw_halt :
    (State.reset.loadMicroProgram [] 9).toOption.map
      (fun s => ((s.select .microMachine).stepped.mic.status, (s.select .microMachine).stepped.mic.mpc))
      = some (⟨.halted, 9⟩, 9) := by decide

/-- L1-7: the number of cycles is the number of CONTINUE outcomes. -/
theorem test_cycles_run :
    (State.reset.loadMicroProgram [(0, wordOfBits [.cb5, .cb9, .cb17, .cb22])] 0).map
      (fun s => State.cyclesRun 5 (s.select .microMachine)) = .ok 1 := by decide

/-! ### The FWW ALU: 95_test_vectors.md 2.1 -/

theorem test_alu_construct :
    construct 16 (-70000) = .ok ⟨16, 0xEE90, false⟩ ∧ construct 1 (-1) = .ok ⟨1, 1, false⟩ ∧
    construct 16 (-1) true = .ok ⟨16, 0xFFFF, true⟩ ∧ construct 0 5 = .error (.invalidWidth 0) ∧
    toSigned ⟨4, 8, false⟩ = -8 ∧ toSigned ⟨4, 8, true⟩ = 8 ∧ isZero ⟨16, 0, true⟩ = true := by
  decide

theorem test_alu_combination :
    aluAdd (.word ⟨4, 0xF, false⟩) (.word ⟨8, 1, true⟩) = ⟨8, 0x10, true⟩ ∧
    aluAdd (.int 70000) (.int 1) = ⟨16, 4465, true⟩ ∧
    aluSubtract (.word ⟨4, 0, false⟩) (.word ⟨8, 1, false⟩) = ⟨8, 0xFF, false⟩ ∧
    aluAnd (.word ⟨16, 0x1234, false⟩) (.int (-1)) = ⟨16, 0x1234, false⟩ ∧
    aluOr (.int 0x10000) (.int 1) = ⟨16, 1, true⟩ ∧
    aluMultiply (.word ⟨16, 300, false⟩) (.word ⟨16, 300, false⟩) = ⟨16, 0x5F90, false⟩ := by
  decide

theorem test_alu_divide :
    aluFloorDivide .trunc (.word ⟨4, 0xF, false⟩) (.word ⟨8, 2, false⟩) = .ok ⟨8, 0, false⟩ ∧
    aluFloorDivide .trunc (.word ⟨4, 0xF, true⟩) (.word ⟨8, 2, false⟩) = .ok ⟨8, 7, true⟩ ∧
    aluFloorDivide .trunc (.word ⟨8, 0xF9, false⟩) (.word ⟨8, 2, false⟩) = .ok ⟨8, 0xFD, false⟩ ∧
    aluFloorDivide .trunc (.word ⟨8, 5, false⟩) (.int 0) = .error .divideByZero := by decide

theorem test_alu_unary :
    aluNegate ⟨16, 0x8000, false⟩ = ⟨16, 0x8000, false⟩ ∧ aluNot ⟨4, 0, false⟩ = ⟨4, 15, false⟩ ∧
    aluShiftLeft ⟨16, 0x8001, false⟩ 1 = ⟨16, 2, false⟩ ∧
    aluShiftRight ⟨16, 0x8000, false⟩ 1 = ⟨16, 0x4000, false⟩ ∧
    aluAnswer .trunc (.shiftLeft ⟨16, 1, false⟩ (.int (-1))) = .refused ∧
    aluXor (.word ⟨16, 0x0F0F, false⟩) (.word ⟨16, 0x00FF, false⟩) = ⟨16, 0x0FF0, false⟩ := by decide

theorem test_alu_split_fields :
    splitFields ⟨16, 0xABCD, false⟩ [4, 4, 8] = .ok [⟨4, 0xA, true⟩, ⟨4, 0xB, true⟩, ⟨8, 0xCD, true⟩] ∧
    splitFields ⟨16, 0, false⟩ [4, 8] = .error .fieldWidthMismatch ∧
    splitFields ⟨16, 0, false⟩ [0, 16] = .error (.invalidWidth 0) := by decide

/-- L1-10. -/
theorem test_micro_alu :
    microAlu 1 5 true true = 8 ∧ microAlu 1 0 true false = 0xFFFF ∧
    microAlu 0 0x8000 false true = 0 := by decide

/-! ### Assemblers: 95_test_vectors.md 2.5 -/

theorem test_assembler_words :
    assembleMacroLine 1 "5 -1" = .ok (some (5, 0xFFFF)) ∧
    assembleMacroLine 1 "3 LOAD 4097" = .ok (some (3, 0x1001)) ∧
    assembleMacroLine 1 "4 NOP" = .ok (some (4, 0x0001)) ∧
    assembleMacroLine 1 "4 NOP 0" = .ok (some (4, 0)) ∧
    assembleMacroLine 1 "4 OHJELMA 10" = .ok (some (4, 0xA00A)) := by decide

/-- The later line wins (section 2.5), and a comment counts for no word. -/
theorem test_assembler_later_line_wins :
    (assembleMacro ["1 5", "# again", "1 6"]).map (fun p => (imageMemory p.image, p.start)) =
      .ok (([(1, 6)] : Memory 16), 0) := by decide

theorem test_assembler_errors :
    assembleMacroLine 7 "4 load 7" = .error (.syntaxError 7 "4 load 7") ∧
    assembleMacroLine 7 "4 JUMP" = .error (.syntaxError 7 "4 JUMP") ∧
    assembleMacroLine 7 "0x10 5" = .error (.syntaxError 7 "0x10 5") ∧
    assembleMacroLine 7 "4096 7" = .error (.addressOutOfRange 4096) ∧
    assembleMacroLine 7 "-1 7" = .error (.addressOutOfRange (-1)) := by decide

theorem test_assembler_ignores :
    assembleMacroLine 1 "   # comment" = .ok none ∧ assembleMacroLine 1 "" = .ok none ∧
    assembleMacroLine 1 " debug " = .ok none ∧ assembleMacroLine 1 "Help" = .ok none := by decide

/-- Part of the micro program of section 2.5, and its error lines. -/
theorem test_micro_assembler :
    assembleMicro ["0: 5 9", "cc(1,5)", "debug", "3: 2 trailing 9", "3: 4"] =
      .ok [(0, wordOfBits [.cb5, .cb9]), (1, wordOfBits [.cb1, .cb5]), (3, wordOfBits [.cb2, .cb4])] ∧
    assembleMicro ["1: 23"] = .error (.syntaxError 1 "1: 23") ∧
    assembleMicro ["x: 1"] = .error (.syntaxError 1 "x: 1") ∧
    assembleMicro ["256: 1"] = .error (.addressOutOfRange 256) := by decide

/-! ### Host commands: 95_test_vectors.md 2.6 -/

theorem test_host_memory :
    (State.reset.setMemory .macroMachine 3 70000).bind (State.readMemory .macroMachine 3) = .ok 4464 ∧
    (State.reset.setMemory .microMachine 3 (-1)).bind (State.readMemory .microMachine 3) = .ok (-1) ∧
    State.reset.readMemory .macroMachine 4096 = .error (.addressOutOfRange 4096) := by decide

theorem test_host_registers :
    (State.reset.writeRegister .acc 40000).map (State.readRegister .acc) = .ok (-25536) ∧
    (State.reset.writeRegister .mar 5000).map (State.readRegister .mar) = .ok 904 ∧
    (State.reset.writeRegister .mpc 300).map (State.readRegister .mpc) =
      .error (.addressOutOfRange 300) := by decide

/-- `withFetchWord` places a word that the next step runs. -/
theorem test_with_fetch_word :
    (State.reset.withFetchWord 16 0xC028).stepped.mac.acc = 40 ∧
    (State.reset.withFetchWord 24 0b0000100010000000100001).stepped.mic.a = 1 := by decide

/-! ### Witnesses of the statements' hypotheses -/

/-- A control word by its set bits. -/
def word (bits : List ControlBit) : ControlWord := wordOfBits bits

theorem witness_DecodeOfEncodeIsTheInstruction :
    (Instr.nop 1).wellFormed = true ∧ (Instr.loadid 4095).wellFormed = true ∧
    (Instr.cb1AToV2 0b1111111111111111111111).wellFormed = true ∧
    (Instr.cb22SeqRelative 1).wellFormed = true := by decide

theorem witness_StepRunsTheDecodedInstruction :
    ((macroState 4095 0 []).turn = .macroMachine ∧ (macroState 4095 0 []).mac.pc ≤ 4095) ∧
    (microState [.cb5] MicroMachine.reset).turn = .microMachine := by decide

theorem witness_FetchAboveMemoryFaults :
    (macroState 4096 0 []).turn = .macroMachine ∧ 4095 < (macroState 4096 0 []).mac.pc := by decide

theorem witness_ZeroWordHalts :
    State.reset.turn = .macroMachine ∧ State.reset.mac.pc ≤ 4095 ∧
    State.reset.mac.mem.read State.reset.mac.pc = 0 := by decide

theorem witness_NopRowsOnlyAdvancePc :
    (1 : Addr) ≠ 0 ∧ Instr.nop 1 ∈ [Instr.nop 1, .unknown14 1, .unknown15 1] := by decide

theorem witness_StoreWritesTheOperandCell :
    (4 : Nat) ≠ (5 : Addr).toNat ∧ (macroState 0 7 [(0, 0x2005)]).mac.mem.wf 4096 := by decide

theorem witness_DivideGivesTheRoundedQuotient :
    (macroState 0 7 [(32, 2)]).mac.mem.read (32 : Addr).toNat ≠ 0 ∧
    (macroState 0 7 [(32, 2)]).mac.mem.read (33 : Addr).toNat = 0 := by decide

theorem witness_DivideByZeroIsRecorded :
    let s := macroState 4095 9 [(4095, macroWordOf 6 32)]
    s.turn = .macroMachine ∧ s.mac.pc ≤ 4095 ∧ s.mac.mem.read s.mac.pc = macroWordOf 6 32 ∧
    s.mac.mem.read (32 : Addr).toNat = 0 := by decide

theorem witness_NoOtherDivideByZero :
    let s := macroState 11 9 [(11, 0x6020)]
    s.turn = .macroMachine ∧ step s = .next s.stepped ∧
    s.stepped.mac.status.code = .divideByZero := ⟨rfl, rfl, by decide⟩

theorem witness_JumpsubStoresTheReturnAddress :
    (4 : Nat) ≠ (5 : Addr).toNat ∧
    (macroState 4095 0 [(4095, 0xA005)]).mac.mem.wf 4096 ∧
    (macroState 4095 0 [(4095, 0xA005)]).mac.pc ≤ 4095 := by decide

theorem witness_ReturnGoesBackToTheCaller :
    (macroState 4095 0 [(4095, 0xA005)]).mac.mem.wf 4096 ∧
    (macroState 4095 0 [(4095, 0xA005)]).mac.pc ≤ 4095 ∧
    (macroState 9 0 [(5, 4096)]).mac.mem.read (5 : Addr).toNat =
      (macroState 4095 0 [(4095, 0xA005)]).stepped.mac.mem.read (5 : Addr).toNat := by decide

theorem witness_LoadiLoadsTheOperand :
    (macroState 0 0 []).config.extAllowed = true ∧
    (macroState 0 0 [] false).config.extAllowed = false := by decide

theorem witness_LoadidFollowsThePointer :
    ((macroState 0 0 [(50, 4095)]).config.extAllowed = true ∧
      ((macroState 0 0 [(50, 4095)]).mac.mem.read (50 : Addr).toNat).toNat ≤ 4095) ∧
    ((macroState 0 0 [(50, 4096)]).config.extAllowed = true ∧
      4095 < ((macroState 0 0 [(50, 4096)]).mac.mem.read (50 : Addr).toNat).toNat) ∧
    (macroState 0 0 [] false).config.extAllowed = false := by decide

theorem witness_DisabledExtensionsAreRecorded :
    let s := macroState 4095 0 [(4095, macroWordOf 13 50)] false
    let s' := macroState 0 0 [(0, macroWordOf 12 0)] false
    ((13 : BitVec 4) = 12 ∨ (13 : BitVec 4) = 13) ∧ s.config.extAllowed = false ∧
    s.turn = .macroMachine ∧ s.mac.pc ≤ 4095 ∧ s.mac.mem.read s.mac.pc = macroWordOf 13 50 ∧
    s'.config.extAllowed = false ∧ s'.mac.mem.read s'.mac.pc = macroWordOf 12 0 := by decide

theorem witness_MacroStatusFollowsThePriority : State.reset.turn = .macroMachine := by decide

theorem witness_StoppedMacroStepIsPreciseAndRepeats :
    State.reset.turn = .macroMachine ∧ step State.reset = .next State.reset.stepped ∧
    State.reset.stepped.mac.status.code ≠ .running := ⟨rfl, rfl, by decide⟩

theorem witness_MacroStepWritesOnlyTheOperandCell :
    let s := macroState 2 15 [(2, 0x2005)]
    let s' := macroState 2 15 [(2, 0x1005)]
    (s.turn = .macroMachine ∧ step s = .next s.stepped ∧ 4 ≠ (operandOf (fetchedWord s)).toNat) ∧
    (s'.turn = .macroMachine ∧ step s' = .next s'.stepped ∧
      opcodeOf (fetchedWord s') ≠ 2 ∧ opcodeOf (fetchedWord s') ≠ 10) :=
  ⟨⟨rfl, rfl, by decide⟩, rfl, rfl, by decide, by decide⟩

theorem witness_StoreIsSeenByTheNextFetch :
    let s := macroState 4094 7 [(4094, macroWordOf 2 4095)]
    s.turn = .macroMachine ∧ s.mac.mem.wf 4096 ∧ s.mac.mem.read s.mac.pc = macroWordOf 2 4095 ∧
    (4095 : Addr).toNat = s.mac.pc + 1 := by decide

theorem witness_PhaseOneRowsFeedTheAlu :
    (hasBit (word [.cb1, .cb9]) .cb9 = true ∧ hasBit (word [.cb1, .cb9]) .cb1 = true ∧
      hasBit (word [.cb1, .cb9]) .cb2 = false ∧ hasBit (word [.cb1, .cb9]) .cb3 = false ∧
      hasBit (word [.cb1, .cb9]) .cb4 = false) ∧
    (hasBit (word [.cb1, .cb2, .cb9]) .cb9 = true ∧ hasBit (word [.cb1, .cb2, .cb9]) .cb2 = true ∧
      hasBit (word [.cb1, .cb2, .cb9]) .cb3 = false ∧
      hasBit (word [.cb1, .cb2, .cb9]) .cb4 = false) ∧
    (hasBit (word [.cb3, .cb9]) .cb9 = true ∧ hasBit (word [.cb3, .cb9]) .cb3 = true ∧
      hasBit (word [.cb3, .cb9]) .cb4 = false) ∧
    (hasBit (word [.cb3, .cb4, .cb9]) .cb9 = true ∧
      hasBit (word [.cb3, .cb4, .cb9]) .cb4 = true) ∧
    (hasBit (word [.cb5, .cb9]) .cb9 = true ∧ hasBit (word [.cb5, .cb9]) .cb5 = true ∧
      hasBit (word [.cb5, .cb9]) .cb6 = false) ∧
    (hasBit (word [.cb5, .cb6, .cb9]) .cb9 = true ∧
      hasBit (word [.cb5, .cb6, .cb9]) .cb6 = true) ∧
    (hasBit (word [.cb1, .cb5, .cb7, .cb9]) .cb9 = true ∧
      hasBit (word [.cb1, .cb5, .cb7, .cb9]) .cb7 = true ∧
      hasBit (word [.cb1, .cb5, .cb7, .cb9]) .cb8 = false) ∧
    (hasBit (word [.cb1, .cb5, .cb8, .cb9]) .cb9 = true ∧
      hasBit (word [.cb1, .cb5, .cb8, .cb9]) .cb8 = true ∧
      hasBit (word [.cb1, .cb5, .cb8, .cb9]) .cb7 = false) := by decide

theorem witness_LatchRowsWriteTheirRegister :
    let w := word [.cb9, .cb10, .cb11, .cb12, .cb13, .cb14]
    hasBit w .cb9 = true ∧ hasBit w .cb10 = true ∧ hasBit w .cb11 = true ∧ hasBit w .cb12 = true ∧
    hasBit w .cb13 = true ∧ hasBit w .cb15 = false ∧ hasBit w .cb14 = true := by decide

theorem witness_MemoryRowsAccessTheCellAtMar :
    State.reset.mic.um.wf 4096 ∧
    (hasBit (word [.cb15]) .cb15 = true ∧ hasBit (word [.cb15]) .cb16 = false) ∧
    hasBit (word [.cb16]) .cb16 = true ∧
    (hasBit (word [.cb15, .cb16]) .cb16 = true ∧ hasBit (word [.cb15, .cb16]) .cb15 = true) := by
  decide

theorem witness_SequencingRowsSelectTheNextAddress :
    (hasBit (word [.cb17]) .cb17 = true ∧ hasBit (word [.cb17]) .cb18 = false ∧
      hasBit (word [.cb17]) .cb19 = false ∧ hasBit (word [.cb17]) .cb20 = false ∧
      hasBit (word [.cb17]) .cb21 = false) ∧
    (hasBit (word [.cb17, .cb18]) .cb18 = true ∧ hasBit (word [.cb17, .cb18]) .cb19 = false ∧
      hasBit (word [.cb17, .cb18]) .cb20 = false ∧ hasBit (word [.cb17, .cb18]) .cb21 = false) ∧
    (hasBit (word [.cb18, .cb19]) .cb19 = true ∧ hasBit (word [.cb18, .cb19]) .cb20 = false ∧
      hasBit (word [.cb18, .cb19]) .cb21 = false) ∧
    (hasBit (word [.cb19, .cb20]) .cb20 = true ∧ hasBit (word [.cb19, .cb20]) .cb21 = false) ∧
    hasBit (word [.cb20, .cb21]) .cb21 = true ∧
    (hasBit (word [.cb22]) .cb22 = true ∧ hasBit (word [.cb22]) .cb17 = false ∧
      hasBit (word [.cb22]) .cb18 = false ∧ hasBit (word [.cb22]) .cb19 = false ∧
      hasBit (word [.cb22]) .cb20 = false ∧ hasBit (word [.cb22]) .cb21 = false) := by decide

theorem witness_HighestSourceBitWins :
    let w := word [.cb1, .cb3, .cb9]
    let w' := word [.cb5, .cb6, .cb9]
    (hasBit w .cb9 = true ∧ hasBit w .cb7 = false ∧ hasBit w .cb8 = false ∧
      hasBit w .cb5 = false ∧ hasBit w .cb6 = false) ∧
    (hasBit w' .cb9 = true ∧ hasBit w' .cb7 = false ∧ hasBit w' .cb8 = false ∧
      hasBit w' .cb1 = false ∧ hasBit w' .cb2 = false ∧ hasBit w' .cb3 = false ∧
      hasBit w' .cb4 = false) := by decide

/-- Every row of the table of idioms, each with a word that is not the halt sentinel. -/
theorem witness_SequencingIdiomsGiveTheNextMpc :
    let idiom := fun w => [ControlBit.cb17, .cb18, .cb19, .cb20, .cb21, .cb22].filter (hasBit w)
    (word [.cb9] ≠ 0 ∧ idiom (word [.cb9]) = []) ∧
    (word [.cb22] ≠ 0 ∧ idiom (word [.cb22]) = [.cb22]) ∧
    (word [.cb17] ≠ 0 ∧ idiom (word [.cb17]) = [.cb17]) ∧
    (word [.cb17, .cb22] ≠ 0 ∧ idiom (word [.cb17, .cb22]) = [.cb17, .cb22]) ∧
    (word [.cb18] ≠ 0 ∧ idiom (word [.cb18]) = [.cb18]) ∧
    (word [.cb18, .cb22] ≠ 0 ∧ idiom (word [.cb18, .cb22]) = [.cb18, .cb22]) ∧
    (word [.cb19, .cb22] ≠ 0 ∧ idiom (word [.cb19, .cb22]) = [.cb19, .cb22]) ∧
    (word [.cb20, .cb22] ≠ 0 ∧ idiom (word [.cb20, .cb22]) = [.cb20, .cb22]) ∧
    (word [.cb21, .cb22] ≠ 0 ∧ idiom (word [.cb21, .cb22]) = [.cb21, .cb22]) := by decide

theorem witness_RowsOfOneWordAgree : hasBit (word [.cb1, .cb22]) .cb22 = true := by decide

theorem witness_ZeroControlWordHalts :
    (microState [] MicroMachine.reset).turn = .microMachine ∧
    (microState [] MicroMachine.reset).mic.mir = 0 := by decide

theorem witness_NoControlWordFaults :
    (microState [] MicroMachine.reset).turn = .microMachine ∧
    (microState [] MicroMachine.reset).mic.mir = 0 ∧
    (microState [.cb5] MicroMachine.reset).turn = .microMachine ∧
    (microState [.cb5] MicroMachine.reset).mic.mir ≠ 0 := by decide

theorem witness_CycleFetchesFromTheUnchangedStore :
    let s := microState [.cb5] MicroMachine.reset
    step s = .next s.stepped ∧ s.turn = .microMachine ∧ s.mic.mir ≠ 0 := ⟨rfl, rfl, by decide⟩

theorem witness_StepKeepsTheBlockSound :
    State.reset.Sound ∧ step State.reset = .next State.reset.stepped := ⟨by decide, rfl⟩

theorem witness_CommandsKeepTheBlockSound :
    State.reset.Sound ∧
    State.reset.command (.writeRegister .pc 65535) = .ok (State.reset.setPc 65535, .done) :=
  ⟨by decide, rfl⟩

theorem witness_MachinesShareNoState :
    let s := microState [.cb5] MicroMachine.reset
    (step State.reset = .next State.reset.stepped ∧ State.reset.turn = .macroMachine) ∧
    (step s = .next s.stepped ∧ s.turn = .microMachine) := ⟨⟨rfl, rfl⟩, rfl, rfl⟩

/-- Two states that differ in the other machine, for either turn. -/
theorem witness_StepDependsOnItsOwnMachineOnly :
    let s := State.reset
    let s' := { State.reset with mic := { MicroMachine.reset with a := 5 } }
    let u := microState [.cb5] MicroMachine.reset
    let u' := { u with mac := { MacroMachine.reset with acc := 5 } }
    (s.turn = s'.turn ∧ AgreeFor s.turn s s' ∧ s ≠ s') ∧
    (u.turn = u'.turn ∧ AgreeFor u.turn u u' ∧ u ≠ u') :=
  ⟨⟨rfl, ⟨rfl, rfl⟩, by decide⟩, rfl, ⟨rfl, rfl⟩, by decide⟩

theorem witness_MemoriesThatReadAlikeAreEqual :
    Memory.wf 4096 (Memory.write ([(4095, 1)] : Memory 16) 4095 0) ∧
    Memory.wf 4096 ([] : Memory 16) ∧
    ∀ a, Memory.read (Memory.write ([(4095, 1)] : Memory 16) 4095 0) a
      = Memory.read ([] : Memory 16) a :=
  ⟨by decide, by decide, fun _ => rfl⟩

theorem witness_HostMemoryReadsBackWhatItSets :
    State.reset.Sound ∧ ((0 : Int) ≤ 4095 ∧ (4095 : Int) ≤ 4095 ∧ (0 : Int) ≠ 4095) ∧
    ((-1 : Int) < 0 ∨ (4095 : Int) < -1) ∧ ((4096 : Int) < 0 ∨ (4095 : Int) < 4096) := by decide

/-- An image that gives address 3 twice. -/
theorem witness_LoadProgramGivesAFreshMachine :
    let image : List (Addr × Word) := [(3, 1), (3, 7)]
    ((0 : Int) ≤ 4095 ∧ (4095 : Int) ≤ 4095) ∧ (4 : Addr) ∉ image.map Prod.fst ∧
    (image = [(3, 1)] ++ (3, 7) :: [] ∧ (3 : Addr) ∉ ([] : List (Addr × Word)).map Prod.fst) ∧
    ((-1 : Int) < 0 ∨ (4095 : Int) < -1) ∧ ((4096 : Int) < 0 ∨ (4095 : Int) < 4096) := by decide

theorem witness_MicroLoadProgramFillsTheControlStore :
    let image : List (MicroAddr × ControlWord) := [(3, 1), (3, 7)]
    ((0 : Int) ≤ 255 ∧ (255 : Int) ≤ 255) ∧ (4 : MicroAddr) ∉ image.map Prod.fst ∧
    (image = [(3, 1)] ++ (3, 7) :: [] ∧
      (3 : MicroAddr) ∉ ([] : List (MicroAddr × ControlWord)).map Prod.fst) ∧
    ((-1 : Int) < 0 ∨ (255 : Int) < -1) ∧ ((256 : Int) < 0 ∨ (255 : Int) < 256) := by decide

theorem witness_HostRegistersReadBackWhatIsWritten :
    ((0 : Int) ≤ 65535 ∧ (65535 : Int) ≤ 65535) ∧ ((-1 : Int) < 0 ∨ (65535 : Int) < -1) ∧
    ((65536 : Int) < 0 ∨ (65535 : Int) < 65536) ∧
    ((0 : Int) ≤ 255 ∧ (255 : Int) ≤ 255) ∧ ((256 : Int) < 0 ∨ (255 : Int) < 256) := by decide

/-- Both sides of the equivalence: a run that ends at its first step, and one that a cap stops. -/
theorem witness_RunEndsAtTheFirstStop :
    State.run 1 State.reset = some State.reset.stepped ∧ State.reset.stepped.isRunning = false ∧
    State.run 5 (macroState 8 0 [(8, 0x7008)]) = none := by decide

theorem witness_StoppedMachineStaysStopped :
    State.reset.stepped.isRunning = false ∧
    (microState [] MicroMachine.reset).stepped.isRunning = false := by decide

theorem witness_AluResultsSatisfyTheWordInvariant :
    construct 1 (-1) true = .ok ⟨1, 1, true⟩ ∧ ValidOperand (.word ⟨16, 65535, false⟩) ∧
    ValidOperand (.int (-70000)) ∧
    aluFloorDivide .trunc (.word ⟨16, 65535, false⟩) (.int 1) = .ok ⟨16, 65535, false⟩ ∧
    ValidWord ⟨1, 1, false⟩ ∧ splitFields ⟨1, 1, false⟩ [1] = .ok [⟨1, 1, true⟩] ∧
    (⟨1, 1, true⟩ : FWW) ∈ [(⟨1, 1, true⟩ : FWW)] := by decide

theorem witness_ConstructAndSignedViewRoundTrip :
    0 < 1 ∧ (-(2 ^ (16 - 1) : Int) ≤ -32768 ∧ (-32768 : Int) < 2 ^ (16 - 1)) ∧
    (-(2 ^ (1 - 1) : Int) ≤ -1 ∧ (-1 : Int) < 2 ^ (1 - 1)) := by decide

theorem witness_NegateTwiceIsTheIdentity : ValidWord ⟨16, 0x8000, false⟩ ∧ ValidWord ⟨1, 0, true⟩ := by
  decide

theorem witness_AddUndoesSubtract :
    let a : FWW := ⟨16, 0, false⟩
    let b : FWW := ⟨16, 65535, false⟩
    ValidWord a ∧ ValidWord b ∧ a.bits = b.bits ∧ a.unsigned = b.unsigned := by decide

theorem witness_SplitFieldsReassembles :
    ValidWord ⟨16, 0x8001, false⟩ ∧
    splitFields ⟨16, 0x8001, false⟩ [1, 14, 1] =
      .ok [⟨1, 1, true⟩, ⟨14, 0, true⟩, ⟨1, 1, true⟩] ∧
    (∀ w ∈ [(1 : Int), 14, 1], 0 < w) ∧ [(1 : Int), 14, 1].sum = (16 : Nat) := by decide

theorem witness_DivideTruncatesTowardZero :
    let a : FWW := ⟨16, 0x8000, false⟩
    let b : FWW := ⟨16, 0xFFFF, false⟩
    let z : FWW := ⟨4, 0, true⟩
    ValidWord a ∧ ValidWord b ∧ ValidWord z ∧ z.value = 0 ∧ b.value ≠ 0 ∧
    (a.unsigned = false ∧ b.unsigned = false) ∧
    (toSigned a = -(2 ^ (max a.bits b.bits - 1) : Int) ∧ toSigned b = -1) := by decide

/-- Mixed widths (-1 by 2, in two signed-mode words) and two unsigned-mode words. -/
theorem witness_DivideOfOtherShapes :
    let a : FWW := ⟨4, 0xF, false⟩
    let b : FWW := ⟨8, 2, false⟩
    let c : FWW := ⟨4, 0xF, true⟩
    let d : FWW := ⟨8, 0x80, true⟩
    ValidWord a ∧ ValidWord b ∧ ValidWord c ∧ ValidWord d ∧ b.value ≠ 0 ∧ d.value ≠ 0 ∧
    (a.unsigned = false ∧ b.unsigned = false ∧
      ¬(toSigned a = -(2 ^ (max a.bits b.bits - 1) : Int) ∧ toSigned b = -1)) ∧
    (c.unsigned = true ∧ d.unsigned = true) := by decide

theorem witness_NarrowerOperandIsZeroExtended :
    ValidWord ⟨4, 15, false⟩ ∧ ValidWord ⟨8, 1, true⟩ := by decide

theorem witness_PlainIntegersTakeTheWordsShape :
    ValidWord ⟨4, 15, false⟩ ∧ ValidWord ⟨1, 1, true⟩ := by decide

theorem witness_InstructionLinesAssembleToTheirWord :
    integerToken "4095".toList = some 4095 ∧ integerToken "-1".toList = some (-1) ∧
    ("LOADID", (13 : BitVec 4)) ∈ mnemonicTable ∧
    (("LISÄÄ", "ADD") ∈ aliasTable ∧ ("ADD", (3 : BitVec 4)) ∈ mnemonicTable) := by decide

theorem witness_MicroLinesNeverClearABit :
    let st : MicroAssembly := { lastAddress := some 255, store := [(255, wordOfBits [.cb2])] }
    st.store.wf 256 ∧
    assembleMicroLine 2 "255: 4" st =
      .ok { lastAddress := some 255, store := [(255, wordOfBits [.cb2, .cb4])] } ∧
    hasBit (st.store.read 255) .cb2 = true ∧ isSilentLine "debug".toList = true := by decide

/-- A code line at either end of the address range, naming the first and the last bit. -/
theorem witness_MicroCodeLineInRange :
    let st : MicroAssembly := { lastAddress := some 254, store := [] }
    isSilentLine "1 22".toList = false ∧ st.addressOf (splitAddress "1 22".toList).1 = some 255 ∧
    leadingIntegers (tokensOf separatesBits (stripWrapper (splitAddress "1 22".toList).2)) =
      [1, 22] ∧
    st.addressOf (splitAddress "0: 1".toList).1 = some 0 := by decide

/-- The lines that fail: an address out of range on either side, a wrong address, and a bit number
out of range on either side. -/
theorem witness_MicroCodeLineFails :
    let st : MicroAssembly := { lastAddress := some 255, store := [] }
    isSilentLine "1".toList = false ∧ st.addressOf (splitAddress "1".toList).1 = some 256 ∧
    st.addressOf (splitAddress "-1: 1".toList).1 = some (-1) ∧
    st.addressOf (splitAddress "x: 1".toList).1 = none ∧ isSilentLine "x: 1".toList = false ∧
    leadingIntegers (tokensOf separatesBits (stripWrapper (splitAddress "1: 0".toList).2)) = [0] ∧
    leadingIntegers (tokensOf separatesBits (stripWrapper (splitAddress "1: 23".toList).2)) =
      [23] := by decide

end Sys2Proof.Machine.Tests
end

/-!
The block's invariant (O39). What a step can do is said once, apart from any invariant: a 16-bit
instruction has one of the effects of `MacroEffect`, a control word runs its cycle or halts
(`exec_decodeMacroWord`, `exec_decodeControlWord`), and `stepMacro_cases` puts the fetch in front.
That the block stays sound is then one short case per effect.
-/

namespace Sys2Proof.Machine

/-! ### What a step can do -/

/-- `MacroEffect a s t`: an instruction with the operand `a`, executed in the state `s` after
the fetch, may leave the state `t` (42_macro_datapath.md, 43_macro_control.md). -/
inductive MacroEffect (a : Addr) (s : State) : State → Prop
  /-- The zero word (41_macro_cycle.md R133). -/
  | halted : MacroEffect a s s.haltMacro
  /-- A runtime fault: nothing but STATUS changes (60_exceptions.md R218). -/
  | faulted (f : Fault) : MacroEffect a s (s.setMacStatus f.status)
  /-- NOP, an unknown opcode, or a jump that is not taken (R151, R158, R159, R172, R173). -/
  | retired : MacroEffect a s s.retire
  /-- A new value for ACC (R152, R154 to R157, R160, R161). -/
  | loaded (v : Word) : MacroEffect a s (s.setAcc v).retire
  /-- STORE (R153). -/
  | stored : MacroEffect a s (s.storeAt a s.mac.acc).retire
  /-- A taken jump (R171 to R173). -/
  | jumped : MacroEffect a s (s.setPc a.toNat).continueMacro
  /-- JUMPSUB (R174). -/
  | called :
      MacroEffect a s ((s.storeAt a (returnAddress s)).setPc (a.toNat + 1)).continueMacro
  /-- RETURN (R175). -/
  | returned : MacroEffect a s (s.setPc (s.valueAt a).toNat).continueMacro

theorem execDivide_effect (a : Addr) (s : State) :
    ∃ t, execDivide a s = .next t ∧ MacroEffect a s t := by
  unfold execDivide
  split
  · exact ⟨_, rfl, .loaded _⟩
  · exact ⟨_, takeFault_eq _ s, .faulted _⟩

theorem execJumpzero_effect (a : Addr) (s : State) :
    ∃ t, execJumpzero a s = .next t ∧ MacroEffect a s t := by
  unfold execJumpzero
  split
  · exact ⟨_, rfl, .jumped⟩
  · exact ⟨_, rfl, .retired⟩

theorem execJumpneg_effect (a : Addr) (s : State) :
    ∃ t, execJumpneg a s = .next t ∧ MacroEffect a s t := by
  unfold execJumpneg
  split
  · exact ⟨_, rfl, .jumped⟩
  · exact ⟨_, rfl, .retired⟩

/-- The gate adds no effect but its own fault (41_macro_cycle.md R136). -/
theorem extensionGate_effect {opcode : Nat} {a : Addr} {s : State}
    {handler : Host.Outcome State Fault Refusal}
    (h : ∃ t, handler = .next t ∧ MacroEffect a s t) :
    ∃ t, extensionGate opcode s handler = .next t ∧ MacroEffect a s t := by
  rcases extensionGate_cases opcode s handler with ⟨-, passes⟩ | ⟨-, faults⟩
  · rwa [passes]
  · exact ⟨_, faults, .faulted _⟩

theorem execLoadi_effect (a : Addr) (s : State) :
    ∃ t, execLoadi a s = .next t ∧ MacroEffect a s t :=
  extensionGate_effect ⟨_, rfl, .loaded _⟩

theorem execLoadid_effect (a : Addr) (s : State) :
    ∃ t, execLoadid a s = .next t ∧ MacroEffect a s t := by
  apply extensionGate_effect
  rcases memRead_cases s (s.valueAt a).toNat with ⟨-, inRange⟩ | ⟨-, outOfRange⟩
  · rw [inRange]; exact ⟨_, rfl, .loaded _⟩
  · rw [outOfRange]; exact ⟨_, takeFault_eq _ s, .faulted _⟩

/-- The instruction of every 16-bit word has one of the effects of `MacroEffect`, at the word's
operand. The cases stand in the order of the decoder's table. -/
theorem exec_decodeMacroWord (w : Word) (s : State) :
    ∃ t, exec (decodeMacroWord w) s = .next t ∧ MacroEffect (operandOf w) s t := by
  unfold decodeMacroWord
  split
  · exact ⟨_, rfl, .halted⟩
  · split
    · exact ⟨_, rfl, .retired⟩
    · exact ⟨_, rfl, .loaded _⟩
    · exact ⟨_, rfl, .stored⟩
    · exact ⟨_, rfl, .loaded _⟩
    · exact ⟨_, rfl, .loaded _⟩
    · exact ⟨_, rfl, .loaded _⟩
    · exact execDivide_effect _ s
    · exact ⟨_, rfl, .jumped⟩
    · exact execJumpzero_effect _ s
    · exact execJumpneg_effect _ s
    · exact ⟨_, rfl, .called⟩
    · exact ⟨_, rfl, .returned⟩
    · exact execLoadi_effect _ s
    · exact execLoadid_effect _ s
    · exact ⟨_, rfl, .retired⟩
    · exact ⟨_, rfl, .retired⟩

/-- Every row of a control word means the cycle of the whole word (44_micro_sequencer.md R199). -/
theorem exec_rowOfBit (b : ControlBit) (w : ControlWord) (s : State) :
    exec (rowOfBit b w) s = .next (s.runControlWord w) := by
  cases b <;> rfl

/-- A control word halts or runs its cycle (44_micro_sequencer.md R198, R199). -/
theorem exec_decodeControlWord (w : ControlWord) (s : State) :
    exec (decodeControlWord w) s =
        .next (s.setMicStatus { code := .halted, info := s.mic.mpc.toNat }) ∨
      exec (decodeControlWord w) s = .next (s.runControlWord w) := by
  unfold decodeControlWord
  split
  · exact .inl rfl
  · exact .inr (exec_rowOfBit _ w s)

/-- All that `stepMacro` can do: the fetch faults, or the instruction of the fetched word has its
effect on the state with that word in IR (41_macro_cycle.md R130 to R132). -/
theorem stepMacro_cases (s : State) :
    (4096 ≤ s.mac.pc ∧
        stepMacro s = .next (s.setMacStatus (Fault.addressOutOfRange s.mac.pc).status)) ∨
      (s.mac.pc < 4096 ∧ ∃ t, stepMacro s = .next t ∧
        MacroEffect (operandOf (fetchedWord s)) (s.setIr (fetchedWord s)) t) := by
  unfold stepMacro
  rcases fetch_cases s with ⟨inRange, fetched⟩ | ⟨above, faults⟩
  · rw [fetched]
    exact .inr ⟨inRange, exec_decodeMacroWord (fetchedWord s) (s.setIr (fetchedWord s))⟩
  · rw [faults]
    exact .inl ⟨above, takeFault_eq _ s⟩

/-! ### Every effect keeps the block sound -/

/-- A 16-bit instruction leaves the micro machine alone (20_memory.md R60). -/
theorem MacroEffect.mic_eq {a : Addr} {s t : State} (h : MacroEffect a s t) : t.mic = s.mic := by
  cases h <;> rfl

theorem wf_storeAt {a : Addr} {s : State} (h : Memory.wf 4096 s.mac.mem) (v : Word) :
    Memory.wf 4096 (s.storeAt a v).mac.mem :=
  wf_write s.mac.mem h a.toNat a.isLt v

/-- M stays in canonical form, since an operand addresses a cell of it, and PC stays in range, since
it advances from an address the fetch has checked or takes a value of at most 16 bits
(10_state.md R21). -/
theorem MacroEffect.mac_sound {a : Addr} {s t : State} (h : MacroEffect a s t)
    (hs : s.mac.Sound) (hpc : s.mac.pc < 4096) : t.mac.Sound := by
  obtain ⟨hmem, hrange⟩ := hs
  have hnext : s.mac.pc + 1 ≤ 65535 := by omega
  have hcall : a.toNat + 1 ≤ 65535 := by have := a.isLt; omega
  cases h with
  | halted => exact ⟨hmem, hrange⟩
  | faulted f => exact ⟨hmem, hrange⟩
  | retired => exact ⟨hmem, hnext⟩
  | loaded v => exact ⟨hmem, hnext⟩
  | stored => exact ⟨wf_storeAt hmem _, hnext⟩
  | jumped => exact ⟨hmem, Nat.le_of_succ_le hcall⟩
  | called => exact ⟨wf_storeAt hmem _, hcall⟩
  | returned => exact ⟨hmem, Nat.le_of_lt_succ (s.valueAt a).isLt⟩

/-- A cycle writes UM at MAR alone, never CS, and ends with the control word at the new MPC in MIR
(44_micro_sequencer.md R189, R197). -/
theorem runControlWord_mic_sound {s : State} (hs : s.mic.Sound) (w : ControlWord) :
    (s.runControlWord w).mic.Sound := by
  obtain ⟨hcs, hum, -, -⟩ := hs
  have hstore : Memory.wf 256 (microCycle s.config.lit8Map w s.mic).cs := by
    rw [microCycle_eq]
    exact hcs
  have hwrite : Memory.wf 4096 (microCycle s.config.lit8Map w s.mic).um := by
    rw [microCycle_eq]
    dsimp only
    split
    · exact wf_write _ hum _ (marAfter w s.mic).isLt _
    · exact hum
  exact ⟨hstore, hwrite, rfl, .inl rfl⟩

theorem stepMacro_keeps_sound {s t : State} (hs : s.Sound) (h : stepMacro s = .next t) :
    t.Sound := by
  obtain ⟨hmac, hmic⟩ := hs
  rcases stepMacro_cases s with ⟨-, faults⟩ | ⟨inRange, t', runs, effect⟩
  · cases faults.symm.trans h
    exact ⟨hmac, hmic⟩
  · cases runs.symm.trans h
    exact ⟨effect.mac_sound hmac inRange, effect.mic_eq ▸ hmic⟩

theorem stepMicro_keeps_sound {s t : State} (hs : s.Sound) (h : stepMicro s = .next t) :
    t.Sound := by
  obtain ⟨hmac, hmic⟩ := hs
  rcases exec_decodeControlWord s.mic.mir s with halts | runs
  · cases halts.symm.trans h
    obtain ⟨hcs, hum, hmir, -⟩ := hmic
    exact ⟨hmac, hcs, hum, hmir, .inr rfl⟩
  · cases runs.symm.trans h
    exact ⟨hmac, runControlWord_mic_sound hmic _⟩

/-- Settles O39: the step of either machine keeps the block sound, by what it can do. -/
theorem stepKeepsTheBlockSound : Obligations.StepKeepsTheBlockSound := by
  intro s t hs h
  unfold step at h
  split at h
  · exact stepMacro_keeps_sound hs h
  · exact stepMicro_keeps_sound hs h

end Sys2Proof.Machine

/-!
Memory (20_memory.md): which cells a step writes (O25, O37), that the next fetch sees a store (O26),
and the host's accesses (O44). The decoder's facts come first, then what one step is once its fetch
is in range or its control word is not zero, then the statements, and last the data memory that the
host reaches.
-/

namespace Sys2Proof

/-! ### Decoder facts -/

/-- The two instructions that write M (20_memory.md R55): STORE and JUMPSUB. -/
def Instr.writesMemory : Instr → Bool
  | .store _ => true
  | .jumpsub _ => true
  | _ => false

/-- The opcodes of STORE and JUMPSUB are those with the bits x010. -/
theorem opcode_store_or_jumpsub_eq (opcode : BitVec 4) :
    (opcode == 2 || opcode == 10) = (!opcode[2] && opcode[1] && !opcode[0]) := by
  revert opcode
  decide

/-- A word decodes to an instruction that writes M exactly if its opcode is STORE's or JUMPSUB's;
the halt sentinel has opcode 0. -/
theorem writesMemory_decodeMacroWord (w : Word) :
    (decodeMacroWord w).writesMemory = (opcodeOf w == 2 || opcodeOf w == 10) := by
  unfold decodeMacroWord
  split
  case isTrue zero => subst zero; rfl
  case isFalse =>
    rw [opcode_store_or_jumpsub_eq]
    split <;> simp only [*] <;> rfl

theorem decodeMacroWord_store (a : Addr) : decodeMacroWord (macroWordOf 2 a) = .store a := by
  have nonzero : macroWordOf 2 a ≠ 0 := fun zero =>
    absurd ((opcodeOf_macroWordOf 2 a).symm.trans (congrArg opcodeOf zero)) (by decide)
  unfold decodeMacroWord
  rw [if_neg nonzero, opcodeOf_macroWordOf, operandOf_macroWordOf]
  rfl

/-- The 22 control bits are all the bits of a control word, so a word without a lead bit is zero. -/
theorem eq_zero_of_leadBit_eq_none {w : ControlWord} (h : leadBit w = none) : w = 0 := by
  have clear : ∀ b ∈ ControlBit.all, ¬ hasBit w b = true := List.find?_eq_none.mp h
  have bitAt : ∀ i : Fin 22, ∃ b ∈ ControlBit.all, b.number - 1 = i := by decide
  apply BitVec.eq_of_getMsbD_eq
  intro i hi
  obtain ⟨b, listed, position⟩ := bitAt ⟨i, hi⟩
  have off : w.getMsbD i = false := by
    simpa [hasBit, position] using clear b listed
  simpa using off

end Sys2Proof

namespace Sys2Proof.Machine

/-! ### One step, by the machine whose turn it is -/

theorem step_macroMachine {s : State} (turn : s.turn = .macroMachine) : step s = stepMacro s := by
  simp only [step, turn]

theorem step_microMachine {s : State} (turn : s.turn = .microMachine) : step s = stepMicro s := by
  simp only [step, turn]

/-- A macro step whose fetch is in range runs the fetched word, with that word in IR
(41_macro_cycle.md R132). -/
theorem stepMacro_of_inRange {s : State} (inRange : s.mac.pc < 4096) :
    stepMacro s = exec (decodeMacroWord (fetchedWord s)) (s.setIr (fetchedWord s)) := by
  unfold stepMacro
  rcases fetch_cases s with ⟨-, fetched⟩ | ⟨above, -⟩
  · rw [fetched]; rfl
  · omega

/-- A control word other than zero runs its cycle (44_micro_sequencer.md R199). -/
theorem stepMicro_of_ne_zero {s : State} (nonzero : s.mic.mir ≠ 0) :
    stepMicro s = .next (s.runControlWord s.mic.mir) := by
  unfold stepMicro decodeControlWord
  split
  case h_1 noLead => exact absurd (eq_zero_of_leadBit_eq_none noLead) nonzero
  case h_2 b _ => exact exec_rowOfBit b _ s

/-! ### What a macro step writes -/

/-- An instruction writes no cell of M but its operand's. -/
theorem MacroEffect.read_other {a : Addr} {s t : State} (h : MacroEffect a s t) {x : Nat}
    (other : x ≠ a.toNat) : t.mac.mem.read x = s.mac.mem.read x := by
  cases h with
  | stored => exact read_write_other _ _ _ _ other
  | called => exact read_write_other _ _ _ _ other
  | halted | faulted | retired | loaded | jumped | returned => rfl

theorem execDivide_keeps_mem {a : Addr} {s t : State} (h : execDivide a s = .next t) :
    t.mac.mem = s.mac.mem := by
  unfold execDivide at h
  split at h <;> cases h <;> rfl

theorem execJumpzero_keeps_mem {a : Addr} {s t : State} (h : execJumpzero a s = .next t) :
    t.mac.mem = s.mac.mem := by
  unfold execJumpzero at h
  split at h <;> cases h <;> rfl

theorem execJumpneg_keeps_mem {a : Addr} {s t : State} (h : execJumpneg a s = .next t) :
    t.mac.mem = s.mac.mem := by
  unfold execJumpneg at h
  split at h <;> cases h <;> rfl

/-- The gate's own fault leaves M alone, so a gated handler need only keep M itself. -/
theorem extensionGate_keeps_mem {opcode : Nat} {s t : State}
    {handler : Host.Outcome State Fault Refusal}
    (keeps : handler = .next t → t.mac.mem = s.mac.mem)
    (h : extensionGate opcode s handler = .next t) : t.mac.mem = s.mac.mem := by
  rcases extensionGate_cases opcode s handler with ⟨-, passes⟩ | ⟨-, faults⟩
  · exact keeps (passes.symm.trans h)
  · cases faults.symm.trans h; rfl

theorem execLoadi_keeps_mem {a : Addr} {s t : State} (h : execLoadi a s = .next t) :
    t.mac.mem = s.mac.mem :=
  extensionGate_keeps_mem (fun loads => by cases loads; rfl) h

theorem execLoadid_keeps_mem {a : Addr} {s t : State} (h : execLoadid a s = .next t) :
    t.mac.mem = s.mac.mem := by
  refine extensionGate_keeps_mem (fun loads => ?_) h
  split at loads <;> cases loads <;> rfl

/-- Every instruction but STORE and JUMPSUB leaves M alone, control words included. -/
theorem exec_keeps_mem {i : Instr} {s t : State} (reads : i.writesMemory = false)
    (h : exec i s = .next t) : t.mac.mem = s.mac.mem := by
  cases i with
  | store a => cases reads
  | jumpsub a => cases reads
  | divide a => exact execDivide_keeps_mem h
  | jumpzero a => exact execJumpzero_keeps_mem h
  | jumpneg a => exact execJumpneg_keeps_mem h
  | loadi a => exact execLoadi_keeps_mem h
  | loadid a => exact execLoadid_keeps_mem h
  | _ => cases h; rfl

/-- Settles O25: a cell that is not the operand's is outside every effect, and an opcode that is
neither STORE's nor JUMPSUB's decodes to an instruction that keeps M. -/
theorem macroStepWritesOnlyTheOperandCell : Obligations.MacroStepWritesOnlyTheOperandCell := by
  intro s t turn h x hx
  rw [step_macroMachine turn] at h
  rcases stepMacro_cases s with ⟨-, faults⟩ | ⟨inRange, t', runs, effect⟩
  · cases faults.symm.trans h
    rfl
  · cases runs.symm.trans h
    rcases hx with other | ⟨notStore, notCall⟩
    · exact effect.read_other other
    · have reads : (decodeMacroWord (fetchedWord s)).writesMemory = false := by
        rw [writesMemory_decodeMacroWord, beq_false_of_ne notStore, beq_false_of_ne notCall,
          Bool.or_false]
      rw [exec_keeps_mem reads ((stepMacro_of_inRange inRange).symm.trans runs), setIr_mac_mem]

/-! ### A store and the fetch after it -/

/-- The step that fetches STORE `a` writes ACC to the cell `a` and advances PC
(42_macro_datapath.md R153). -/
theorem stepMacro_store {s : State} {a : Addr} (inRange : s.mac.pc < 4096)
    (fetched : fetchedWord s = macroWordOf 2 a) :
    ∃ t, stepMacro s = .next t ∧ t.turn = s.turn ∧ t.mac.pc = s.mac.pc + 1 ∧
      t.mac.mem = s.mac.mem.write a.toNat s.mac.acc := by
  rw [stepMacro_of_inRange inRange, fetched, decodeMacroWord_store]
  exact ⟨_, rfl, rfl, rfl, rfl⟩

/-- Settles O26: the STORE leaves PC at the cell it has written, so the next fetch reads ACC. -/
theorem storeIsSeenByTheNextFetch : Obligations.StoreIsSeenByTheNextFetch := by
  intro a s turn canonical fetched nextCell
  obtain ⟨rising, -⟩ := canonical
  have operandInRange := a.isLt
  obtain ⟨t, stored, turnAfter, pcAfter, memAfter⟩ := stepMacro_store (by omega) fetched
  have fetchedAfter : fetchedWord t = s.mac.acc := by
    rw [fetchedWord, pcAfter, memAfter, ← nextCell]
    exact read_write_same _ rising _ _
  refine ⟨t, (step_macroMachine turn).trans stored, pcAfter.trans nextCell.symm, ?_⟩
  rw [step_macroMachine (turnAfter.trans turn), stepMacro_of_inRange (by omega), fetchedAfter]
  rfl

/-! ### The control store -/

theorem runControlWord_cs (s : State) (w : ControlWord) :
    (s.runControlWord w).mic.cs = s.mic.cs := by
  simp [State.runControlWord, microCycle_eq]

/-- Phase 5 fetches at the new MPC (44_micro_sequencer.md R197). -/
theorem runControlWord_mir (s : State) (w : ControlWord) :
    (s.runControlWord w).mic.mir =
      (s.runControlWord w).mic.cs.read (s.runControlWord w).mic.mpc.toNat := rfl

theorem stepMacro_keeps_mic {s t : State} (h : stepMacro s = .next t) : t.mic = s.mic := by
  rcases stepMacro_cases s with ⟨-, faults⟩ | ⟨-, t', runs, effect⟩
  · cases faults.symm.trans h
    rfl
  · cases runs.symm.trans h
    exact effect.mic_eq

theorem stepMicro_keeps_cs {s t : State} (h : stepMicro s = .next t) : t.mic.cs = s.mic.cs := by
  rcases exec_decodeControlWord s.mic.mir s with halts | runs
  · cases halts.symm.trans h
    rfl
  · cases runs.symm.trans h
    exact runControlWord_cs s _

/-- Settles O37: no step of either machine writes CS, and a cycle ends with phase 5. -/
theorem cycleFetchesFromTheUnchangedStore : Obligations.CycleFetchesFromTheUnchangedStore := by
  intro s t h
  cases turn : s.turn with
  | macroMachine =>
    rw [step_macroMachine turn] at h
    exact ⟨congrArg MicroMachine.cs (stepMacro_keeps_mic h), nofun⟩
  | microMachine =>
    rw [step_microMachine turn] at h
    refine ⟨stepMicro_keeps_cs h, fun _ nonzero => ?_⟩
    cases (stepMicro_of_ne_zero nonzero).symm.trans h
    exact runControlWord_mir s _

/-! ### The data memory of a machine and the host's accesses -/

@[simp] theorem dataMemory_setDataMemory (s : State) (mem : Memory 16) (m : Agent) :
    (s.setDataMemory mem m).dataMemory m = mem := by
  cases m <;> rfl

theorem State.Sound.wf_dataMemory {s : State} (h : s.Sound) (m : Agent) :
    (s.dataMemory m).wf 4096 := by
  obtain ⟨⟨wfMem, -⟩, ⟨-, wfUm, -, -⟩⟩ := h
  cases m with
  | macroMachine => exact wfMem
  | microMachine => exact wfUm

theorem inBounds_memoryCells_iff (a : Int) : inBounds a memoryCells = true ↔ 0 ≤ a ∧ a ≤ 4095 := by
  rw [inBounds_iff, show (memoryCells : Int) = 4096 from rfl]
  omega

section InRange

variable {a : Int} (inRange : inBounds a memoryCells = true)
include inRange

/-- A host's read in range gives the signed view of the cell (20_memory.md R63). -/
theorem readMemory_of_inRange (m : Agent) (s : State) :
    s.readMemory m a = .ok ((s.dataMemory m).read a.toNat).toInt := by
  rw [State.readMemory, if_pos inRange, signedView_eq]

/-- A host's write in range writes the wrapped value (20_memory.md R63). -/
theorem setMemory_of_inRange (m : Agent) (n : Int) (s : State) :
    s.setMemory m a n =
      .ok (s.setDataMemory ((s.dataMemory m).write a.toNat (BitVec.ofInt 16 n)) m) := by
  rw [State.setMemory, if_pos inRange, wrapAt_sixteen]

end InRange

section OutOfRange

variable {a : Int} (outOfRange : ¬ inBounds a memoryCells = true)
include outOfRange

/-- A host's read out of range raises (decision D25). -/
theorem readMemory_of_outOfRange (m : Agent) (s : State) :
    s.readMemory m a = .error (.addressOutOfRange a) := if_neg outOfRange

/-- A host's write out of range raises (decision D25). -/
theorem setMemory_of_outOfRange (m : Agent) (n : Int) (s : State) :
    s.setMemory m a n = .error (.addressOutOfRange a) := if_neg outOfRange

end OutOfRange

/-- A host's read depends on the cell alone, and only in range. -/
theorem readMemory_congr {m : Agent} {b : Int} {s t : State}
    (h : inBounds b memoryCells = true →
      (t.dataMemory m).read b.toNat = (s.dataMemory m).read b.toNat) :
    t.readMemory m b = s.readMemory m b := by
  by_cases inRange : inBounds b memoryCells = true
  · rw [readMemory_of_inRange inRange, readMemory_of_inRange inRange, h inRange]
  · rw [readMemory_of_outOfRange inRange, readMemory_of_outOfRange inRange]

theorem command_setMemory (m : Agent) (a n : Int) (s : State) :
    s.command (.setMemory m a n) = (s.setMemory m a n).map fun t => (t, .done) := rfl

theorem command_readMemory (m : Agent) (a : Int) (s : State) :
    s.command (.readMemory m a) = (s.readMemory m a).map fun v => (s, .integer v) := rfl

/-- Settles O44: in range the write is one write of an address space in canonical form, seen by the
laws of read after write; out of range both accesses fail on their bound check. -/
theorem hostMemoryReadsBackWhatItSets : Obligations.HostMemoryReadsBackWhatItSets := by
  intro m a n s sound
  refine ⟨fun nonneg le => ?_, fun outside => ?_⟩
  · have inRange := (inBounds_memoryCells_iff a).mpr ⟨nonneg, le⟩
    have written := setMemory_of_inRange inRange m n s
    have answered := readMemory_of_inRange inRange m s
    refine ⟨⟨_, written, ?_, ?_, fun b other => ?_, fun isMacro => ?_, fun isMicro => ?_⟩,
      ⟨_, answered, ?_⟩⟩
    · rw [command_setMemory, written]
      rfl
    · rw [readMemory_of_inRange inRange, dataMemory_setDataMemory,
        read_write_same _ (sound.wf_dataMemory m).1]
    · refine readMemory_congr fun bInRange => ?_
      obtain ⟨bNonneg, -⟩ := (inBounds_memoryCells_iff b).mp bInRange
      rw [dataMemory_setDataMemory, read_write_other _ _ _ _ (by omega)]
    · subst isMacro
      rfl
    · subst isMicro
      rfl
    · rw [command_readMemory, answered]
      rfl
  · have outOfRange : ¬ inBounds a memoryCells = true := by
      rw [inBounds_memoryCells_iff]
      omega
    refine ⟨setMemory_of_outOfRange outOfRange m n s, ?_,
      readMemory_of_outOfRange outOfRange m s, ?_⟩
    · rw [command_setMemory, setMemory_of_outOfRange outOfRange]
      rfl
    · rw [command_readMemory, readMemory_of_outOfRange outOfRange]
      rfl

end Sys2Proof.Machine

/-!
Encoding (30_encoding.md): the literal of cb18 (O33), the word of an instruction line (O58), and the
bits a line of the micro assembler sets (O59).
-/

namespace Sys2Proof

/-! ### The literal of cb18 -/

/-- A word is the sum of the weights of the bits that are set. -/
theorem toNat_eq_sum_weights {n : Nat} (v : BitVec n) :
    v.toNat = (((List.range n).filter v.getLsbD).map fun i => 2 ^ i).sum := by
  suffices h : ∀ k, v.toNat % 2 ^ k = (((List.range k).filter v.getLsbD).map fun i => 2 ^ i).sum by
    rw [← h n, Nat.mod_eq_of_lt v.isLt]
  intro k
  induction k with
  | zero => simp [Nat.mod_one]
  | succ k ih =>
    have split : v.toNat % 2 ^ (k + 1) = v.toNat % 2 ^ k + 2 ^ k * (v.getLsbD k).toNat := by
      rw [Nat.mod_pow_succ, BitVec.getLsbD, Nat.toNat_testBit]
    rw [split, ih, List.range_succ, List.filter_append, List.map_append, List.sum_append]
    cases set : v.getLsbD k <;> simp [set]

/-- If the control bits that `chosen` picks are the bits of `v`, each at its position, then `v` is
the sum of the weights of those that are set. -/
theorem toNat_eq_sum_controlBits {n : Nat} (v : BitVec n) (w : ControlWord)
    (chosen : ControlBit → Bool) (position : ControlBit → Nat)
    (positions : ((ControlBit.all.filter chosen).map position).Perm (List.range n))
    (agree : ∀ b ∈ ControlBit.all.filter chosen, hasBit w b = v.getLsbD (position b)) :
    v.toNat = ((ControlBit.all.filter fun b => chosen b && hasBit w b).map
      fun b => 2 ^ position b).sum := by
  have selected : ((ControlBit.all.filter chosen).map position).filter v.getLsbD =
      (ControlBit.all.filter fun b => chosen b && hasBit w b).map position := by
    have same : (ControlBit.all.filter chosen).filter (v.getLsbD ∘ position) =
        (ControlBit.all.filter chosen).filter (hasBit w) := (List.filter_congr agree).symm
    rw [List.filter_map, same, List.filter_filter]
    simp only [Bool.and_comm]
  calc v.toNat
      = (((List.range n).filter v.getLsbD).map fun i => 2 ^ i).sum := toNat_eq_sum_weights v
    _ = ((((ControlBit.all.filter chosen).map position).filter v.getLsbD).map
          fun i => 2 ^ i).sum := (((positions.filter _).map _).sum_eq).symm
    _ = ((ControlBit.all.filter fun b => chosen b && hasBit w b).map
          fun b => 2 ^ position b).sum := by
        rw [selected, List.map_map]
        rfl

theorem ControlBit.number_bounds (b : ControlBit) : 1 ≤ b.number ∧ b.number ≤ 22 := by
  cases b <;> decide

/-- Control bit `k` counts from the left, from 1: it is bit `22 - k` of the word. -/
theorem hasBit_eq_getLsbD (w : ControlWord) (b : ControlBit) :
    hasBit w b = w.getLsbD (22 - b.number) := by
  obtain ⟨low, high⟩ := ControlBit.number_bounds b
  rw [hasBit, BitVec.getMsbD, decide_eq_true (by omega), Bool.true_and]
  congr 1
  omega

/-- Under `MSB_FIRST` the literal is the last eight bits of the word as they stand. -/
theorem hasBit_eq_getLsbD_msbFirst (w : ControlWord) {b : ControlBit} (last : 15 ≤ b.number) :
    hasBit w b = (lit8 .msbFirst w).getLsbD (22 - b.number) := by
  rw [hasBit_eq_getLsbD, lit8, BitVec.getLsbD_extractLsb', decide_eq_true (by omega),
    Bool.true_and, Nat.zero_add]

/-- Under `LSB_FIRST` the literal is the first eight bits of the word in reverse. -/
theorem hasBit_eq_getLsbD_lsbFirst (w : ControlWord) {b : ControlBit} (first : b.number ≤ 8) :
    hasBit w b = (lit8 .lsbFirst w).getLsbD (b.number - 1) := by
  obtain ⟨low, -⟩ := ControlBit.number_bounds b
  rw [hasBit_eq_getLsbD, lit8, BitVec.getLsbD_reverse, BitVec.getMsbD,
    BitVec.getLsbD_extractLsb', decide_eq_true (by omega), decide_eq_true (by omega),
    Bool.true_and, Bool.true_and]
  congr 1
  omega

/-- Settles O33: under either map the eight bits are the bits of the literal, at the positions their
weights give. -/
theorem literalIsTheWeightedSum : Obligations.LiteralIsTheWeightedSum := by
  intro w
  constructor
  · refine toNat_eq_sum_controlBits (lit8 .msbFirst w) w (fun b => decide (15 ≤ b.number))
      (fun b => 22 - b.number) (by decide) fun b listed => hasBit_eq_getLsbD_msbFirst w ?_
    simpa using (List.mem_filter.mp listed).2
  · refine toNat_eq_sum_controlBits (lit8 .lsbFirst w) w (fun b => decide (b.number ≤ 8))
      (fun b => b.number - 1) (by decide) fun b listed => hasBit_eq_getLsbD_lsbFirst w ?_
    simpa using (List.mem_filter.mp listed).2

end Sys2Proof

namespace Sys2Proof.Machine

/-! ### Instruction lines -/

/-- An opcode and an operand do not overlap in their word (30_encoding.md R70). -/
theorem toNat_macroWordOf (opcode : BitVec 4) (a : Addr) :
    (macroWordOf opcode a).toNat = opcode.toNat * 4096 + a.toNat := by
  have operandLt : a.toNat < 2 ^ 12 := a.isLt
  have opcodeLt : opcode.toNat < 2 ^ 4 := opcode.isLt
  have field : (opcode.setWidth 16 <<< 12).toNat = opcode.toNat <<< 12 := by
    rw [BitVec.toNat_shiftLeft, BitVec.toNat_setWidth, Nat.mod_eq_of_lt (a := opcode.toNat)
      (by omega), Nat.shiftLeft_eq, Nat.mod_eq_of_lt (by omega)]
  rw [macroWordOf, BitVec.toNat_or, field, BitVec.toNat_setWidth, Nat.mod_eq_of_lt (by omega),
    ← Nat.shiftLeft_add_eq_or_of_lt operandLt, Nat.shiftLeft_eq]

theorem toNat_instructionWord (opcode : BitVec 4) (v : Int) :
    ((instructionWord opcode v).toNat : Int) = opcode.toNat * 4096 + v % 4096 := by
  have wrapped := wrapAt_lt 12 v
  rw [instructionWord, toNat_macroWordOf, BitVec.toNat_ofNat, Nat.mod_eq_of_lt wrapped]
  push_cast
  rw [wrapAt_cast]
  rfl

/-- In a table without a repeated name, the search for a listed name finds its row. -/
theorem find?_of_mem_of_nodup {β : Type} {table : List (String × β)} {name : String} {x : β}
    (distinct : (table.map Prod.fst).Nodup) (listed : (name, x) ∈ table) :
    (table.find? fun p => p.1.toList == name.toList) = some (name, x) := by
  induction table with
  | nil => simp at listed
  | cons p rest ih =>
    rw [List.map_cons, List.nodup_cons] at distinct
    obtain ⟨notLater, distinct⟩ := distinct
    rcases List.mem_cons.mp listed with rfl | later
    · exact List.find?_cons_of_pos (beq_self_eq_true _)
    · have other : p.1 ≠ name := fun same => notLater (same ▸ List.mem_map_of_mem later)
      rw [List.find?_cons_of_neg (by simpa [String.toList_inj] using other), ih distinct later]

theorem nodup_mnemonics : (mnemonicTable.map Prod.fst).Nodup := by
  decide

theorem nodup_aliases : (aliasTable.map Prod.fst).Nodup := by
  decide

theorem mnemonic_ne_alias : ∀ p ∈ mnemonicTable, ∀ q ∈ aliasTable, q.1 ≠ p.1 := by
  decide

/-- A canonical mnemonic is not translated (30_encoding.md R85). -/
theorem canonicalMnemonic_of_canonical {m : String} {opcode : BitVec 4}
    (listed : (m, opcode) ∈ mnemonicTable) : canonicalMnemonic m.toList = m.toList := by
  have unlisted : (aliasTable.find? fun p => p.1.toList == m.toList) = none :=
    List.find?_eq_none.mpr fun q aliased => by
      simpa [String.toList_inj] using mnemonic_ne_alias _ listed q aliased
  rw [canonicalMnemonic, unlisted]

/-- A nickname is translated to the mnemonic it stands for (30_encoding.md R85). -/
theorem canonicalMnemonic_of_alias {nickname m : String} (aliased : (nickname, m) ∈ aliasTable) :
    canonicalMnemonic nickname.toList = m.toList := by
  rw [canonicalMnemonic, find?_of_mem_of_nodup nodup_aliases aliased]

/-- A token that stands for a canonical mnemonic has its opcode (30_encoding.md R85). -/
theorem opcodeOfMnemonic_of_canonicalMnemonic {token : List Char} {m : String} {opcode : BitVec 4}
    (canonical : canonicalMnemonic token = m.toList) (listed : (m, opcode) ∈ mnemonicTable) :
    opcodeOfMnemonic token = some opcode := by
  rw [opcodeOfMnemonic, canonical, find?_of_mem_of_nodup nodup_mnemonics listed]
  rfl

theorem lineWord_of_instruction {addr token value : List Char} {a v : Int} {opcode : BitVec 4}
    (haddr : integerToken addr = some a) (known : opcodeOfMnemonic token = some opcode)
    (hvalue : integerToken value = some v) :
    lineWord [addr, token, value] = some (a, instructionWord opcode v) := by
  simp only [lineWord, haddr, known, hvalue]

/-- Settles O58: the tables give the opcode, and the instruction word is the sum of its fields. -/
theorem instructionLinesAssembleToTheirWord : Obligations.InstructionLinesAssembleToTheirWord := by
  intro addr value a v haddr hvalue
  have assembles : ∀ (token : List Char) (m : String) (opcode : BitVec 4),
      canonicalMnemonic token = m.toList → (m, opcode) ∈ mnemonicTable →
        ∃ w, lineWord [addr, token, value] = some (a, w) ∧
          (w.toNat : Int) = opcode.toNat * 4096 + v % 4096 :=
    fun _ _ opcode canonical listed =>
      ⟨_, lineWord_of_instruction haddr
        (opcodeOfMnemonic_of_canonicalMnemonic canonical listed) hvalue,
        toNat_instructionWord opcode v⟩
  exact ⟨fun _ _ listed => assembles _ _ _ (canonicalMnemonic_of_canonical listed) listed,
    fun _ _ _ aliased listed => assembles _ _ _ (canonicalMnemonic_of_alias aliased) listed⟩

/-! ### The bits a micro line names -/

theorem hasBit_or (v w : ControlWord) (b : ControlBit) :
    hasBit (v ||| w) b = (hasBit v b || hasBit w b) :=
  BitVec.getMsbD_or

/-- The mask of bit number `n` sets the control bit of that number alone (30_encoding.md R94). -/
theorem hasBit_maskOfNumber {n : Int} (low : 1 ≤ n) (high : n ≤ 22) (b : ControlBit) :
    hasBit (1#22 <<< (22 - n.toNat)) b = decide ((b.number : Int) = n) := by
  obtain ⟨bitLow, bitHigh⟩ := ControlBit.number_bounds b
  rw [hasBit_eq_getLsbD, BitVec.getLsbD_shiftLeft, BitVec.getLsbD_one, Bool.eq_iff_iff]
  simp only [Bool.and_eq_true, Bool.not_eq_true', decide_eq_true_eq, decide_eq_false_iff_not]
  omega

theorem wordOfNumbers_cons_of_inRange {n : Int} (inRange : 1 ≤ n ∧ n ≤ 22) (ns : List Int) :
    wordOfNumbers (n :: ns) =
      (wordOfNumbers ns).map fun w => (1#22 <<< (22 - n.toNat)) ||| w :=
  if_pos inRange

/-- Bit numbers in 1 to 22 have a word, which sets exactly the bits they name. -/
theorem wordOfNumbers_of_inRange (ns : List Int) (inRange : ∀ n ∈ ns, 1 ≤ n ∧ n ≤ 22) :
    ∃ w, wordOfNumbers ns = some w ∧
      ∀ b : ControlBit, hasBit w b = decide ((b.number : Int) ∈ ns) := by
  induction ns with
  | nil => exact ⟨0, rfl, fun b => by simp [hasBit]⟩
  | cons n ns ih =>
    rw [List.forall_mem_cons] at inRange
    obtain ⟨first, rest⟩ := inRange
    obtain ⟨w, word, bits⟩ := ih rest
    refine ⟨1#22 <<< (22 - n.toNat) ||| w, ?_, fun b => ?_⟩
    · rw [wordOfNumbers_cons_of_inRange first, word]
      rfl
    · rw [hasBit_or, hasBit_maskOfNumber first.1 first.2, bits]
      simp only [List.mem_cons, Bool.decide_or]

/-- A bit number outside 1 to 22, wherever it stands, leaves no word. -/
theorem wordOfNumbers_of_outOfRange {ns : List Int} (outside : ∃ n ∈ ns, n < 1 ∨ 22 < n) :
    wordOfNumbers ns = none := by
  induction ns with
  | nil => simp at outside
  | cons n ns ih =>
    by_cases first : 1 ≤ n ∧ n ≤ 22
    · obtain ⟨k, listed, wrong⟩ := outside
      have later : k ∈ ns := (List.mem_cons.mp listed).resolve_left (by omega)
      rw [wordOfNumbers_cons_of_inRange first, ih ⟨k, later, wrong⟩]
      rfl
    · exact if_neg first

/-! ### What a micro line does to the store -/

theorem inBounds_controlStoreEntries_iff (a : Int) :
    inBounds a controlStoreEntries = true ↔ 0 ≤ a ∧ a ≤ 255 := by
  rw [inBounds_iff, show (controlStoreEntries : Int) = 256 from rfl]
  omega

section AddBits

variable {st : MicroAssembly}

/-- `addBits` at its own address is the OR with what stands there (30_encoding.md R95). -/
theorem read_addBits_same (wf : st.store.wf 256) (a : Nat) (w : ControlWord) :
    (st.addBits a w).store.read a = st.store.read a ||| w :=
  read_write_same st.store wf.1 a _

theorem read_addBits_other {a x : Nat} (other : x ≠ a) (w : ControlWord) :
    (st.addBits a w).store.read x = st.store.read x :=
  read_write_other st.store a x _ other

/-- No bit is cleared, at the address written or at another (30_encoding.md R95). -/
theorem hasBit_addBits_of_hasBit (wf : st.store.wf 256) (a : Nat) (w : ControlWord) {x : Nat}
    {b : ControlBit} (set : hasBit (st.store.read x) b = true) :
    hasBit ((st.addBits a w).store.read x) b = true := by
  by_cases same : x = a
  · subst same
    rw [read_addBits_same wf, hasBit_or, set, Bool.true_or]
  · rwa [read_addBits_other same]

end AddBits

section CodeLine

variable {lineNumber : Nat} {line : String} {st : MicroAssembly}

/-- A line that is assembled changes nothing, or ORs one word into one address of the store. -/
theorem assembleMicroLine_eq_ok {st' : MicroAssembly}
    (h : assembleMicroLine lineNumber line st = .ok st') :
    st' = st ∨ ∃ (a : Nat) (w : ControlWord), a < 256 ∧ st' = st.addBits a w := by
  cases silent : isSilentLine line.toList with
  | true =>
    cases (assembleMicroLine_of_silent lineNumber line st silent).symm.trans h
    exact .inl rfl
  | false =>
    rcases assembleMicroLine_cases lineNumber line st silent with
      ⟨-, fails⟩ | ⟨a, w, -, -, ⟨inRange, writes⟩ | ⟨-, fails⟩⟩
    · cases fails.symm.trans h
    · cases writes.symm.trans h
      obtain ⟨nonneg, le⟩ := (inBounds_controlStoreEntries_iff a).mp inRange
      exact .inr ⟨a.toNat, w, by omega, rfl⟩
    · cases fails.symm.trans h

variable (code : isSilentLine line.toList = false)
include code

/-- A code line without an address or without a word fails, whatever its range (log entry 14). -/
theorem assembleMicroLine_of_syntaxError
    (wrong : st.addressOf (splitAddress line.toList).1 = none ∨
      wordOfBitList (splitAddress line.toList).2 = none) :
    assembleMicroLine lineNumber line st = .error (.syntaxError lineNumber line) := by
  rcases assembleMicroLine_cases lineNumber line st code with ⟨-, fails⟩ | ⟨a, w, address, word, -⟩
  · exact fails
  · simp [address, word] at wrong

/-- A code line with an address and a word writes the word, if the address is in range. -/
theorem assembleMicroLine_of_address_word {a : Int} {w : ControlWord}
    (address : st.addressOf (splitAddress line.toList).1 = some a)
    (word : wordOfBitList (splitAddress line.toList).2 = some w) :
    assembleMicroLine lineNumber line st =
      if 0 ≤ a ∧ a ≤ 255 then .ok (st.addBits a.toNat w) else .error (.addressOutOfRange a) := by
  have range := inBounds_controlStoreEntries_iff a
  rcases assembleMicroLine_cases lineNumber line st code with
    ⟨missing, -⟩ | ⟨a', w', address', word', result⟩
  · simp [address, word] at missing
  · cases address.symm.trans address'
    cases word.symm.trans word'
    rcases result with ⟨inside, writes⟩ | ⟨outside, fails⟩
    · rw [writes, if_pos (range.mp inside)]
    · rw [fails, if_neg (fun h => by simp [range.mpr h] at outside)]

end CodeLine

/-- Settles O59: an assembled line ORs a word into one address of the store, and the word of a code
line has the bits it names. -/
theorem microLinesNeverClearABit : Obligations.MicroLinesNeverClearABit := by
  intro lineNumber line st wf named
  refine ⟨fun st' assembled => ?_, assembleMicroLine_of_silent lineNumber line st,
    fun code a address inRange => ?_, fun code wrong => ?_⟩
  · rcases assembleMicroLine_eq_ok assembled with rfl | ⟨a, w, inRange, rfl⟩
    · exact ⟨wf, fun _ _ set => set⟩
    · exact ⟨wf_write st.store wf a inRange _, fun _ _ => hasBit_addBits_of_hasBit wf a w⟩
  · obtain ⟨w, word, bits⟩ := wordOfNumbers_of_inRange named inRange
    have result := assembleMicroLine_of_address_word (lineNumber := lineNumber) code address word
    refine ⟨fun nonneg le => ⟨_, result.trans (if_pos ⟨nonneg, le⟩), rfl, fun b => ?_,
      fun x other => read_addBits_other other w⟩, fun outside => result.trans (if_neg (by omega))⟩
    rw [read_addBits_same wf, hasBit_or, bits]
  · exact assembleMicroLine_of_syntaxError code (wrong.imp_right wordOfNumbers_of_outOfRange)

end Sys2Proof.Machine

/-!
The FWW ALU at every width (40_alu.md): the word invariant (O51), the signed view (O52, O56), the
laws of R122 (O53 to O55) and the combination rule (O57, O60). A stored value is an integer modulo
`2^w`, so the operations reduce to congruences; the signed view of a signed-mode word is its
balanced remainder `Int.bmod`. Each part ends with the statements that rest on it.
-/

namespace Sys2Proof.Machine

/-! ### Stored values as integers modulo `2^w` -/

theorem wrapAt_modEq (w : Nat) (n : Int) : (wrapAt w n : Int) ≡ n [ZMOD 2 ^ w] := by
  rw [wrapAt_cast]
  exact Int.mod_modEq n _

theorem wrapAt_congr {w : Nat} {n m : Int} (h : n ≡ m [ZMOD 2 ^ w]) : wrapAt w n = wrapAt w m := by
  rw [wrapAt_eq_toNat, wrapAt_eq_toNat, h]

theorem wrapAt_natCast (w v : Nat) : wrapAt w v = v % 2 ^ w :=
  Int.toNat_natCast (v % 2 ^ w)

theorem wrapAt_of_lt {w v : Nat} (h : v < 2 ^ w) : wrapAt w v = v := by
  rw [wrapAt_natCast, Nat.mod_eq_of_lt h]

/-! ### Negation, complement, sum and difference -/

theorem aluNegate_eq {x : FWW} (hx : ValidWord x) :
    aluNegate x = { x with value := wrapAt x.bits (-x.value) } := by
  have complement : ((2 ^ x.bits - x.value : Nat) : Int) ≡ -x.value [ZMOD 2 ^ x.bits] := by
    rw [Nat.cast_sub hx.2.le]
    push_cast
    exact Int.modEq_iff_dvd.mpr ⟨-1, by ring⟩
  rw [← wrapAt_congr complement, wrapAt_natCast]
  rfl

theorem two_pow_sub_one_xor {w v : Nat} (h : v < 2 ^ w) : (2 ^ w - 1) ^^^ v = 2 ^ w - (v + 1) := by
  apply Nat.eq_of_testBit_eq
  intro i
  rw [Nat.testBit_xor, Nat.testBit_two_pow_sub_one, Nat.testBit_two_pow_sub_succ h]
  by_cases hi : i < w
  · simp [hi]
  · have high : v.testBit i = false :=
      Nat.testBit_lt_two_pow (h.trans_le (Nat.pow_le_pow_right two_pos (not_lt.mp hi)))
    simp [hi, high]

theorem aluNot_eq {x : FWW} (hx : ValidWord x) :
    aluNot x = { x with value := wrapAt x.bits (-x.value - 1) } := by
  have complement :
      ((2 ^ x.bits - (x.value + 1) : Nat) : Int) ≡ -x.value - 1 [ZMOD 2 ^ x.bits] := by
    rw [Nat.cast_sub hx.2]
    push_cast
    exact Int.modEq_iff_dvd.mpr ⟨-1, by ring⟩
  have small : 2 ^ x.bits - (x.value + 1) < 2 ^ x.bits :=
    Nat.sub_lt (Nat.two_pow_pos _) (Nat.succ_pos _)
  rw [← wrapAt_congr complement, wrapAt_of_lt small, ← two_pow_sub_one_xor hx.2]
  rfl

theorem aluAdd_words (x y : FWW) :
    aluAdd (.word x) (.word y) =
      { bits := max x.bits y.bits
        value := wrapAt (max x.bits y.bits) (x.value + y.value)
        unsigned := x.unsigned || y.unsigned } := by
  rw [← Nat.cast_add, wrapAt_natCast]
  rfl

/-- Settles O53: negating twice negates the stored value twice modulo `2^w`, and the complement is
`-v - 1` modulo `2^w`. -/
theorem negateTwiceIsTheIdentity : Obligations.NegateTwiceIsTheIdentity := by
  intro x hx
  have valid : ValidWord (aluNegate x) := ⟨hx.1, Nat.mod_lt _ (Nat.two_pow_pos _)⟩
  constructor
  · have twice : wrapAt x.bits (-(wrapAt x.bits (-x.value) : Int)) = x.value := by
      rw [wrapAt_congr (wrapAt_modEq x.bits (-x.value)).neg, neg_neg, wrapAt_of_lt hx.2]
    rw [aluNegate_eq valid, aluNegate_eq hx]
    simp only [twice]
  · have difference : wrapAt x.bits ((wrapAt x.bits (-x.value) : Int) - wrapAt x.bits 1) =
        wrapAt x.bits (-x.value - 1) :=
      wrapAt_congr ((wrapAt_modEq x.bits (-x.value)).sub (wrapAt_modEq x.bits 1))
    rw [aluNot_eq hx, ← difference, aluNegate_eq hx]
    rfl

/-- Settles O54: the sum undoes the difference modulo `2^w`. -/
theorem addUndoesSubtract : Obligations.AddUndoesSubtract := by
  intro a b ha _ bits mode
  have undone : wrapAt a.bits ((wrapAt a.bits (a.value - b.value) : Int) + b.value) = a.value := by
    rw [wrapAt_congr ((wrapAt_modEq a.bits (a.value - b.value)).add_right b.value), sub_add_cancel,
      wrapAt_of_lt ha.2]
  have difference : aluSubtract (.word a) (.word b) =
      { a with value := wrapAt a.bits (a.value - b.value) } := by
    simp [aluSubtract, storedValueOp, resultShape, operandWord, ← bits, ← mode]
  rw [difference, aluAdd_words]
  simp only [← bits, ← mode, max_self, Bool.or_self, undone]

/-! ### The signed view -/

theorem two_pow_eq_double {w : Nat} (hw : 1 ≤ w) : ((2 ^ w : Nat) : Int) = 2 * 2 ^ (w - 1) := by
  rw [← pow_succ', Nat.sub_add_cancel hw, Nat.cast_pow, Nat.cast_two]

/-- The signed view of a signed-mode word is the stored value's balanced remainder (R103). -/
theorem toSigned_of_signed {x : FWW} (hx : ValidWord x) (signed : x.unsigned = false) :
    toSigned x = Int.bmod x.value (2 ^ x.bits) := by
  obtain ⟨hbits, hvalue⟩ := hx
  have top : x.value.testBit (x.bits - 1) = decide (2 ^ (x.bits - 1) ≤ x.value) := by
    have view := BitVec.msb_eq_decide (BitVec.ofNat x.bits x.value)
    rwa [BitVec.msb_eq_getLsbD_last, ← BitVec.testBit_toNat, BitVec.toNat_ofNat,
      Nat.mod_eq_of_lt hvalue] at view
  have double : 2 ^ x.bits = 2 * 2 ^ (x.bits - 1) := by exact_mod_cast two_pow_eq_double hbits
  rw [toSigned, top, Int.bmod_def, ← Int.natCast_emod, Nat.mod_eq_of_lt hvalue]
  simp only [signed, true_and, decide_eq_true_eq]
  split_ifs <;> omega

theorem toSigned_wrapped {w : Nat} (hw : 1 ≤ w) (n : Int) :
    toSigned { bits := w, value := wrapAt w n, unsigned := false } = Int.bmod n (2 ^ w) := by
  rw [toSigned_of_signed ⟨hw, wrapAt_lt w n⟩ rfl]
  simp only [wrapAt_cast]
  exact_mod_cast Int.emod_bmod n (2 ^ w)

theorem bmod_two_pow_of_range {w : Nat} {n : Int} (hw : 1 ≤ w) (low : -(2 ^ (w - 1) : Int) ≤ n)
    (high : n < 2 ^ (w - 1)) : Int.bmod n (2 ^ w) = n := by
  have double := two_pow_eq_double hw
  apply Int.bmod_eq_of_le <;> omega

theorem bmod_two_pow_overflow {w : Nat} (hw : 1 ≤ w) :
    Int.bmod (2 ^ (w - 1)) (2 ^ w) = -(2 ^ (w - 1) : Int) := by
  have double := two_pow_eq_double hw
  have positive : (0 : Int) < 2 ^ (w - 1) := by positivity
  rw [Int.bmod_def, double, Int.emod_eq_of_lt positive.le (by omega), if_neg (by omega)]
  ring

/-- A signed-mode word's view lies in the signed range of its width, so in that of any wider one. -/
theorem toSigned_range {x : FWW} (hx : ValidWord x) (signed : x.unsigned = false) {w : Nat}
    (hw : x.bits ≤ w) : -(2 ^ (w - 1) : Int) ≤ toSigned x ∧ toSigned x < 2 ^ (w - 1) := by
  have double := two_pow_eq_double hx.1
  have wider : (2 ^ (x.bits - 1) : Int) ≤ 2 ^ (w - 1) :=
    pow_le_pow_right₀ (by norm_num) (Nat.sub_le_sub_right hw 1)
  have low := Int.le_bmod (x := x.value) (Nat.two_pow_pos x.bits)
  have high := Int.bmod_lt (x := x.value) (Nat.two_pow_pos x.bits)
  rw [toSigned_of_signed hx signed]
  omega

theorem toSigned_eq_zero_iff {x : FWW} (hx : x.value < 2 ^ x.bits) :
    toSigned x = 0 ↔ x.value = 0 := by
  unfold toSigned
  split_ifs with negative
  · have nonzero : x.value ≠ 0 := by
      intro h
      simp [h] at negative
    omega
  · exact Int.natCast_eq_zero

theorem construct_of_pos {bits : Nat} (h : 0 < bits) (n : Int) (u : Bool) :
    construct bits n u = .ok { bits := bits, value := wrapAt bits n, unsigned := u } :=
  if_neg (by omega)

/-- Settles O52: the signed view of a constructed word is the balanced remainder of the integer,
which is its own remainder and is the integer itself on the signed range. -/
theorem constructAndSignedViewRoundTrip : Obligations.ConstructAndSignedViewRoundTrip := by
  intro bits n positive
  refine ⟨_, construct_of_pos positive n false, ⟨_, construct_of_pos positive _ false, ?_⟩, ?_⟩
  · rw [toSigned_wrapped positive, toSigned_wrapped positive, Int.bmod_bmod]
  · rw [toSigned_wrapped positive]
    exact bmod_two_pow_of_range positive

/-! ### The combination rule -/

theorem resultShape_comm (a b : AluOperand) : resultShape a b = resultShape b a := by
  cases a <;> cases b <;> simp [resultShape, max_comm, Bool.or_comm]

/-- The six operations by the shape of the result and the stored values of the operands (R106 to
R110, R115 to R117). -/
theorem binaryAnswers_eq (a b : AluOperand) :
    let shape := resultShape a b
    binaryAnswers a b =
      binaryResults shape.1 shape.2 (operandWord shape a).value (operandWord shape b).value := by
  simp only [binaryAnswers, binaryResults, ← wrapAt_eq_toNat]
  rfl

/-- Settles O57: the combination rule on two words, whose shape does not depend on their order; an
`and` is at most either stored value. -/
theorem narrowerOperandIsZeroExtended : Obligations.NarrowerOperandIsZeroExtended := by
  intro a b ha hb
  refine ⟨binaryAnswers_eq (.word a) (.word b), ?_, ?_⟩
  · rw [binaryAnswers_eq, resultShape_comm]
    rfl
  · have narrow : a.value &&& b.value < 2 ^ min a.bits b.bits := by
      rcases min_choice a.bits b.bits with h | h <;> rw [h]
      · exact Nat.and_le_left.trans_lt ha.2
      · exact Nat.and_le_right.trans_lt hb.2
    exact narrow

/-- Settles O60: the combination rule where an operand is an integer, which takes part as its
remainder modulo `2^w`. -/
theorem plainIntegersTakeTheWordsShape : Obligations.PlainIntegersTakeTheWordsShape := by
  intro round x n m _ wrapped sixteen
  have wraps : operandWord (x.bits, x.unsigned) (.int n) = wrapped := by
    simp only [operandWord, wrapAt_eq_toNat, wrapped]
  have wrapsSixteen (k : Int) : operandWord (16, true) (.int k) = sixteen k := rfl
  have shape_left : resultShape (.word x) (.word wrapped) = (x.bits, x.unsigned) := by
    simp [resultShape, wrapped]
  have shape_right : resultShape (.word wrapped) (.word x) = (x.bits, x.unsigned) := by
    rw [resultShape_comm, shape_left]
  refine ⟨?_, ?_, ?_, ?_, ?_, ?_⟩
  · simp only [binaryAnswers_eq, resultShape, wraps]; rfl
  · simp only [binaryAnswers_eq, resultShape, wraps]; rfl
  · simp only [binaryAnswers_eq, resultShape, wrapsSixteen]; rfl
  · simp only [aluFloorDivide, shape_left]
    simp only [resultShape, wraps]; rfl
  · simp only [aluFloorDivide, shape_right]
    simp only [resultShape, wraps]; rfl
  · rfl

/-! ### The word invariant -/

theorem resultShape_pos {a b : AluOperand} (ha : ValidOperand a) (hb : ValidOperand b) :
    1 ≤ (resultShape a b).1 := by
  cases a with
  | word x => cases b with
    | word y => exact ha.1.trans (le_max_left _ _)
    | int m => exact ha.1
  | int n => cases b with
    | word y => exact hb.1
    | int m => exact Nat.succ_pos 15

/-- The first operand of a binary operation fits the width of the result. -/
theorem operandWord_value_lt {a b : AluOperand} (ha : ValidOperand a) :
    (operandWord (resultShape a b) a).value < 2 ^ (resultShape a b).1 := by
  cases a with
  | int n => exact wrapAt_lt _ n
  | word x => cases b with
    | int m => exact ha.2
    | word y => exact ha.2.trans_le (Nat.pow_le_pow_right two_pos (le_max_left _ _))

theorem binaryResults_valid {w : Nat} (hw : 1 ≤ w) (u : Bool) {x y : Nat} (hx : x < 2 ^ w)
    (hy : y < 2 ^ w) : ∀ r ∈ binaryResults w u x y, ValidWord r := by
  have modulus := Nat.two_pow_pos w
  simp only [binaryResults, ← wrapAt_eq_toNat, List.forall_mem_cons]
  exact ⟨⟨hw, Nat.mod_lt _ modulus⟩, ⟨hw, wrapAt_lt w _⟩, ⟨hw, Nat.mod_lt _ modulus⟩,
    ⟨hw, Nat.and_lt_two_pow _ hy⟩, ⟨hw, Nat.or_lt_two_pow hx hy⟩, ⟨hw, Nat.xor_lt_two_pow hx hy⟩,
    List.forall_mem_nil _⟩

theorem binaryAnswers_valid {a b : AluOperand} (ha : ValidOperand a) (hb : ValidOperand b) :
    ∀ r ∈ binaryAnswers a b, ValidWord r := by
  rw [binaryAnswers_eq]
  refine binaryResults_valid (resultShape_pos ha hb) _ (operandWord_value_lt ha) ?_
  rw [resultShape_comm]
  exact operandWord_value_lt hb

theorem aluFloorDivide_valid {round : DivRound} {a b : AluOperand} {q : FWW}
    (ha : ValidOperand a) (hb : ValidOperand b) (h : aluFloorDivide round a b = .ok q) :
    ValidWord q := by
  simp only [aluFloorDivide] at h
  split at h
  · cases h
  · cases h
    exact ⟨resultShape_pos ha hb, wrapAt_lt _ _⟩

theorem construct_valid {bits n : Int} {u : Bool} {x : FWW} (h : construct bits n u = .ok x) :
    ValidWord x := by
  unfold construct at h
  split at h
  · cases h
  · cases h
    exact ⟨by dsimp only; omega, wrapAt_lt _ n⟩

theorem aluNegate_valid {x : FWW} (hx : ValidWord x) : ValidWord (aluNegate x) :=
  ⟨hx.1, Nat.mod_lt _ (Nat.two_pow_pos _)⟩

theorem aluNot_valid {x : FWW} (hx : ValidWord x) : ValidWord (aluNot x) :=
  ⟨hx.1, Nat.xor_lt_two_pow (Nat.sub_lt (Nat.two_pow_pos _) one_pos) hx.2⟩

theorem aluShiftLeft_valid {x : FWW} (hx : ValidWord x) (k : Nat) : ValidWord (aluShiftLeft x k) :=
  ⟨hx.1, Nat.mod_lt _ (Nat.two_pow_pos _)⟩

theorem aluShiftRight_valid {x : FWW} (hx : ValidWord x) (k : Nat) :
    ValidWord (aluShiftRight x k) :=
  ⟨hx.1, (Nat.shiftRight_le x.value k).trans_lt hx.2⟩

theorem inPlace_valid {x : FWW} (hx : ValidWord x) (r : FWW) : ValidWord (inPlace x r) :=
  ⟨hx.1, Nat.mod_lt _ (Nat.two_pow_pos _)⟩

theorem fieldsOf_valid (v : Nat) {ws : List Nat} (h : ∀ w ∈ ws, 1 ≤ w) :
    ∀ f ∈ fieldsOf v ws, ValidWord f := by
  induction ws with
  | nil => exact List.forall_mem_nil _
  | cons w ws ih =>
    obtain ⟨first, rest⟩ := List.forall_mem_cons.mp h
    exact List.forall_mem_cons.mpr ⟨⟨first, Nat.mod_lt _ (Nat.two_pow_pos w)⟩, ih rest⟩

/-- All that makes `splitFields` succeed, and its answer then (R119, decision D7). -/
theorem splitFields_eq_ok_iff (x : FWW) (widths : List Int) (fields : List FWW) :
    splitFields x widths = .ok fields ↔
      ((∀ w ∈ widths, 0 < w) ∧ widths.sum = x.bits) ∧
        fields = fieldsOf x.value (widths.map Int.toNat) := by
  unfold splitFields
  split
  next w found =>
    have bad : ¬ ∀ w ∈ widths, 0 < w := fun h =>
      absurd (h w (List.mem_of_find?_eq_some found)) (by simpa using List.find?_some found)
    simp [bad]
  next notFound =>
    have positive : ∀ w ∈ widths, 0 < w := by simpa using notFound
    by_cases sum : widths.sum = x.bits
    · simpa [sum, eq_comm] using fun _ => positive
    · simp [sum]

theorem splitFields_valid {x : FWW} {widths : List Int} {fields : List FWW}
    (h : splitFields x widths = .ok fields) : ∀ f ∈ fields, ValidWord f := by
  obtain ⟨⟨positive, -⟩, rfl⟩ := (splitFields_eq_ok_iff x widths fields).mp h
  refine fieldsOf_valid x.value (List.forall_mem_map.mpr fun w hw => ?_)
  have := positive w hw
  omega

/-- Settles O51, operation by operation. -/
theorem aluResultsSatisfyTheWordInvariant : Obligations.AluResultsSatisfyTheWordInvariant := by
  refine ⟨fun bits n u x => construct_valid, fun a b ha hb => ?_, fun x r k hx => ?_,
    fun x widths fields => splitFields_valid⟩
  · have answers := binaryAnswers_valid ha hb
    simp only [binaryAnswers, List.forall_mem_cons] at answers
    obtain ⟨add, subtract, multiply, and, or, xor, -⟩ := answers
    exact ⟨add, subtract, multiply, and, or, xor, fun round q => aluFloorDivide_valid ha hb⟩
  · exact ⟨hx, aluNegate_valid hx, aluNot_valid hx, aluShiftLeft_valid hx k,
      aluShiftRight_valid hx k, inPlace_valid hx r⟩

/-! ### Fields -/

theorem fieldsOf_bits (v : Nat) (ws : List Nat) : (fieldsOf v ws).map FWW.bits = ws := by
  induction ws with
  | nil => rfl
  | cons w ws ih => rw [fieldsOf, List.map_cons, ih]

theorem fieldsOf_unsigned (v : Nat) (ws : List Nat) : ∀ f ∈ fieldsOf v ws, f.unsigned = true := by
  induction ws with
  | nil => exact List.forall_mem_nil _
  | cons w ws ih => exact List.forall_mem_cons.mpr ⟨rfl, ih⟩

/-- Reassembling behind an accumulated value appends the low `ws.sum` bits of `v` to it. -/
theorem foldl_fieldsOf (v : Nat) (ws : List Nat) (acc : Nat) :
    (fieldsOf v ws).foldl (fun acc f => acc * 2 ^ f.bits + f.value) acc =
      acc * 2 ^ ws.sum + v % 2 ^ ws.sum := by
  induction ws generalizing acc with
  | nil => simp [fieldsOf, Nat.mod_one]
  | cons w ws ih =>
    rw [fieldsOf, List.foldl_cons, ih, List.sum_cons, Nat.add_comm w, pow_add, Nat.mod_mul]
    ring

theorem reassemble_fieldsOf {v : Nat} {ws : List Nat} (h : v < 2 ^ ws.sum) :
    reassemble (fieldsOf v ws) = v := by
  rw [reassemble, foldl_fieldsOf, Nat.zero_mul, Nat.zero_add, Nat.mod_eq_of_lt h]

theorem map_toNat_cast {widths : List Int} (positive : ∀ w ∈ widths, 0 < w) :
    (widths.map Int.toNat).map (Nat.cast : Nat → Int) = widths := by
  rw [List.map_map]
  exact (List.map_congr_left fun w hw => Int.toNat_of_nonneg (positive w hw).le).trans
    (List.map_id widths)

/-- Settles O55: the fields have the given widths, and reassembling them gives the stored value,
which fits their sum. -/
theorem splitFieldsReassembles : Obligations.SplitFieldsReassembles := by
  intro x widths hx
  refine ⟨by simp [splitFields_eq_ok_iff], fun fields h => ?_⟩
  obtain ⟨⟨positive, sum⟩, rfl⟩ := (splitFields_eq_ok_iff x widths fields).mp h
  have cast := map_toNat_cast positive
  have sum_toNat : (widths.map Int.toNat).sum = x.bits := by
    rw [← cast, ← Nat.cast_list_sum] at sum
    exact_mod_cast sum
  refine ⟨?_, fieldsOf_unsigned _ _, reassemble_fieldsOf (sum_toNat ▸ hx.2)⟩
  calc (fieldsOf x.value (widths.map Int.toNat)).map (fun f => (f.bits : Int))
      = ((fieldsOf x.value (widths.map Int.toNat)).map FWW.bits).map Nat.cast := by
        rw [List.map_map]; rfl
    _ = widths := by rw [fieldsOf_bits, cast]

/-! ### The divide -/

/-- Dividing stays in a symmetric signed range, but for the one overflow. -/
theorem tdiv_range {bound x y : Int} (low : -bound ≤ x) (high : x < bound)
    (fits : ¬(x = -bound ∧ y = -1)) : -bound ≤ x.tdiv y ∧ x.tdiv y < bound := by
  have size : (x.tdiv y).natAbs = x.natAbs / y.natAbs := Int.natAbs_tdiv x y
  by_cases one : y = 1
  · simp [one, low, high]
  by_cases minusOne : y = -1
  · have negated : x.tdiv y = -x := by simp [minusOne]
    omega
  by_cases zero : y = 0
  · simp only [zero, Int.tdiv_zero]
    omega
  have half : x.natAbs / y.natAbs ≤ x.natAbs / 2 := Nat.div_le_div_left (by omega) two_pos
  omega

theorem tdiv_overflow (bound : Int) : (-bound).tdiv (-1) = bound := by simp

/-- Of two naturals, both roundings give the quotient of the naturals. -/
theorem roundedQuotient_natCast (round : DivRound) (m n : Nat) :
    roundedQuotient round m n = (m / n : Nat) := by
  cases round with
  | trunc => exact (Int.ofNat_tdiv m n).symm
  | floor => exact (Int.ofNat_fdiv m n).symm

theorem roundedQuotient_eq (round : DivRound) (x y : Int) :
    roundedQuotient round x y = if round = .trunc then Int.tdiv x y else Int.fdiv x y := by
  cases round <;> rfl

/-- Settles O56: the wrapped quotient of the signed views. It is in the signed range but for the one
overflow, and the quotient of two naturals fits the width of the first. -/
theorem divideTruncatesTowardZero : Obligations.DivideTruncatesTowardZero := by
  intro round a b ha hb w
  have zero_iff := toSigned_eq_zero_iff hb.2
  have left : a.bits ≤ w := le_max_left _ _
  have hw : 1 ≤ w := ha.1.trans left
  rcases aluFloorDivide_words round a b with ⟨zero, fails⟩ | ⟨nonzero, answers⟩
  · exact ⟨fun _ => fails, fun h => absurd (zero_iff.mp zero) h⟩
  refine ⟨fun h => absurd (zero_iff.mpr h) nonzero, fun _ => ⟨_, answers, rfl, rfl, ?_, ?_, ?_⟩⟩
  · rw [wrapAt_cast, roundedQuotient_eq]
  · rintro rfl aSigned bSigned
    have view := toSigned_wrapped hw (Int.tdiv (toSigned a) (toSigned b))
    rw [aSigned, bSigned]
    refine view.trans ?_
    obtain ⟨low, high⟩ := toSigned_range ha aSigned left
    split_ifs with overflow
    · rw [overflow.1, overflow.2, tdiv_overflow, bmod_two_pow_overflow hw]
    · obtain ⟨lowest, highest⟩ := tdiv_range low high overflow
      exact bmod_two_pow_of_range hw lowest highest
  · intro aUnsigned bUnsigned
    have fits : a.value / b.value < 2 ^ w :=
      (Nat.div_le_self _ _).trans_lt (ha.2.trans_le (Nat.pow_le_pow_right two_pos left))
    rw [toSigned_of_unsigned a aUnsigned, toSigned_of_unsigned b bUnsigned,
      roundedQuotient_natCast]
    exact wrapAt_of_lt fits

end Sys2Proof.Machine

/-!
The macro machine's cycle (41_macro_cycle.md): the decoder's fields (O4), the halt (O8), the state in
which a machine has stopped (O50), and the run under a cap (O49). That a stopped machine repeats its
stop rests on two facts about the macro machine: a step reads neither STATUS nor IR, and a step that
stops changes nothing else.
-/

namespace Sys2Proof

/-! ### The fields of a macro word as numbers -/

theorem toNat_opcodeOf (w : Word) : (opcodeOf w).toNat = w.toNat / 2 ^ 12 % 2 ^ 4 := by
  rw [opcodeOf, BitVec.extractLsb'_toNat, Nat.shiftRight_eq_div_pow]

theorem toNat_operandOf (w : Word) : (operandOf w).toNat = w.toNat % 2 ^ 12 := by
  rw [operandOf, BitVec.extractLsb'_toNat, Nat.shiftRight_zero]

/-- The zero word is caught before any decoding (41_macro_cycle.md R133). -/
@[simp] theorem decodeMacroWord_zero : decodeMacroWord 0 = .haltWord := rfl

end Sys2Proof

namespace Sys2Proof.Machine

/-- Settles O4: the widths are positive and sum to 16, and the two fields are the quotient and the
remainder of the word at the operand's 12 bits. -/
theorem decodeFieldsAreSplitFields : Obligations.DecodeFieldsAreSplitFields := by
  intro w
  refine (splitFields_eq_ok_iff _ _ _).mpr ⟨⟨by decide, rfl⟩, ?_⟩
  rw [toNat_opcodeOf, toNat_operandOf]
  simp [fieldsOf]

/-! ### The halt -/

/-- The halt sentinel changes STATUS alone (41_macro_cycle.md R133, 60_exceptions.md R210). -/
theorem exec_haltWord (s : State) :
    exec .haltWord s = .next (s.setMacStatus { code := .halted, info := s.mac.pc }) := rfl

/-- Settles O8: the fetch puts the zero word into IR, and the halt sentinel writes STATUS. -/
theorem zeroWordHalts : Obligations.ZeroWordHalts := by
  refine ⟨decodeMacroWord_zero, exec_haltWord, fun s turn inRange zero => ?_⟩
  have fetched : fetchedWord s = 0 := zero
  rw [step_macroMachine turn, stepMacro_of_inRange (by omega), fetched, decodeMacroWord_zero,
    exec_haltWord]
  rfl

/-! ### Every step answers a next state -/

theorem MacroEffect.turn_eq {a : Addr} {s t : State} (h : MacroEffect a s t) :
    t.turn = s.turn := by
  cases h <;> rfl

theorem exists_stepMacro_eq_next (s : State) : ∃ t, stepMacro s = .next t ∧ t.turn = s.turn := by
  rcases stepMacro_cases s with ⟨-, faults⟩ | ⟨-, t, runs, effect⟩
  · exact ⟨_, faults, rfl⟩
  · exact ⟨t, runs, effect.turn_eq⟩

theorem exists_stepMicro_eq_next (s : State) : ∃ t, stepMicro s = .next t ∧ t.turn = s.turn := by
  rcases exec_decodeControlWord s.mic.mir s with halts | runs
  · exact ⟨_, halts, rfl⟩
  · exact ⟨_, runs, rfl⟩

theorem exists_step_eq_next (s : State) : ∃ t, step s = .next t ∧ t.turn = s.turn := by
  cases turn : s.turn with
  | macroMachine => rw [step_macroMachine turn, ← turn]; exact exists_stepMacro_eq_next s
  | microMachine => rw [step_microMachine turn, ← turn]; exact exists_stepMicro_eq_next s

theorem stepped_eq_of_step_eq_next {s t : State} (h : step s = .next t) : s.stepped = t := by
  rw [State.stepped, h]

theorem step_eq_next_stepped (s : State) : step s = .next s.stepped := by
  obtain ⟨t, answers, -⟩ := exists_step_eq_next s
  rw [answers, stepped_eq_of_step_eq_next answers]

@[simp] theorem stepped_turn (s : State) : s.stepped.turn = s.turn := by
  obtain ⟨t, answers, turn⟩ := exists_step_eq_next s
  rw [stepped_eq_of_step_eq_next answers, turn]

/-! ### A stopped machine -/

theorem isRunning_eq_false_iff (s : State) :
    s.isRunning = false ↔ (s.statusOf s.turn).code ≠ .running := beq_eq_false_iff_ne

/-- No 16-bit instruction reads STATUS, and each writes it. -/
theorem exec_decodeMacroWord_setMacStatus (w : Word) (s : State) (st : Status) :
    exec (decodeMacroWord w) (s.setMacStatus st) = exec (decodeMacroWord w) s := by
  unfold decodeMacroWord
  split
  · rfl
  · split <;> rfl

/-- A macro step at a PC outside M faults (41_macro_cycle.md R131). -/
theorem stepMacro_of_above {s : State} (above : 4096 ≤ s.mac.pc) :
    stepMacro s = .next (s.setMacStatus (Fault.addressOutOfRange s.mac.pc).status) := by
  rcases stepMacro_cases s with ⟨-, faults⟩ | ⟨inRange, -⟩
  · exact faults
  · omega

/-- A macro step does not depend on STATUS (41_macro_cycle.md R142, decision D15). -/
theorem stepMacro_setMacStatus (s : State) (st : Status) :
    stepMacro (s.setMacStatus st) = stepMacro s := by
  rcases Nat.lt_or_ge s.mac.pc 4096 with inRange | above
  · rw [stepMacro_of_inRange inRange, stepMacro_of_inRange (s := s.setMacStatus st) inRange]
    exact exec_decodeMacroWord_setMacStatus (fetchedWord s) (s.setIr (fetchedWord s)) st
  · rw [stepMacro_of_above above, stepMacro_of_above (s := s.setMacStatus st) above]
    rfl

/-- A macro step whose fetch is in range does not depend on IR, which the fetch writes. -/
theorem stepMacro_setIr {s : State} (inRange : s.mac.pc < 4096) (v : Word) :
    stepMacro (s.setIr v) = stepMacro s := by
  rw [stepMacro_of_inRange inRange, stepMacro_of_inRange (s := s.setIr v) inRange]
  rfl

/-- An instruction that does not end in CONTINUE changes STATUS alone (41_macro_cycle.md R133,
60_exceptions.md R218). -/
theorem MacroEffect.eq_setMacStatus_of_stopped {a : Addr} {s t : State} (h : MacroEffect a s t)
    (stopped : t.mac.status.code ≠ .running) : ∃ st, t = s.setMacStatus st := by
  cases h with
  | halted => exact ⟨_, rfl⟩
  | faulted f => exact ⟨f.status, rfl⟩
  | retired | loaded | stored | jumped | called | returned => exact absurd rfl stopped

/-- A macro step that stops changes only what the next one does not read. -/
theorem stepMacro_of_stopped {s t : State} (h : stepMacro s = .next t)
    (stopped : t.mac.status.code ≠ .running) : stepMacro t = .next t := by
  rw [← h]
  rcases stepMacro_cases s with ⟨-, faults⟩ | ⟨inRange, t', runs, effect⟩
  · cases faults.symm.trans h
    exact stepMacro_setMacStatus s _
  · cases runs.symm.trans h
    obtain ⟨st, rfl⟩ := effect.eq_setMacStatus_of_stopped stopped
    rw [stepMacro_setMacStatus, stepMacro_setIr inRange]

/-- The zero control word halts (44_micro_sequencer.md R198). -/
theorem stepMicro_of_zero {s : State} (zero : s.mic.mir = 0) :
    stepMicro s = .next (s.setMicStatus { code := .halted, info := s.mic.mpc.toNat }) := by
  rw [stepMicro, zero]
  rfl

/-- A micro step stops at the zero control word alone, and leaves MIR and MPC there. -/
theorem stepMicro_of_stopped {s t : State} (h : stepMicro s = .next t)
    (stopped : t.mic.status.code ≠ .running) : stepMicro t = .next t := by
  by_cases zero : s.mic.mir = 0
  · cases (stepMicro_of_zero zero).symm.trans h
    exact stepMicro_of_zero zero
  · cases (stepMicro_of_ne_zero zero).symm.trans h
    exact absurd rfl stopped

/-- Settles O50, by the machine whose turn it is. -/
theorem stoppedMachineStaysStopped : Obligations.StoppedMachineStaysStopped := by
  intro s stopped
  have answers := step_eq_next_stepped s
  have turnAfter := stepped_turn s
  rw [isRunning_eq_false_iff, turnAfter] at stopped
  apply stepped_eq_of_step_eq_next
  cases turn : s.turn with
  | macroMachine =>
    rw [turn] at stopped turnAfter
    rw [step_macroMachine turn] at answers
    rw [step_macroMachine turnAfter]
    exact stepMacro_of_stopped answers stopped
  | microMachine =>
    rw [turn] at stopped turnAfter
    rw [step_microMachine turn] at answers
    rw [step_microMachine turnAfter]
    exact stepMicro_of_stopped answers stopped

/-! ### A run under a cap -/

/-- The first step from `s` that does not end in CONTINUE comes after `k` that do, and leaves `t`. -/
def State.FirstStop (s : State) (k : Nat) (t : State) : Prop :=
  t = State.stepped^[k + 1] s ∧ t.isRunning = false ∧
    ∀ j, j < k → (State.stepped^[j + 1] s).isRunning = true

theorem firstStop_zero_iff (s t : State) :
    s.FirstStop 0 t ↔ t = s.stepped ∧ t.isRunning = false := by
  simp [State.FirstStop]

/-- A first stop that is not at once is the first stop of the state after one step. -/
theorem firstStop_succ_iff (s t : State) (k : Nat) :
    s.FirstStop (k + 1) t ↔ s.stepped.isRunning = true ∧ s.stepped.FirstStop k t := by
  simp only [State.FirstStop, Nat.forall_lt_succ_left, Function.iterate_succ_apply,
    Function.iterate_zero_apply]
  tauto

theorem run_eq_some_iff (cap : Nat) (s t : State) :
    State.run cap s = some t ↔ ∃ k, k < cap ∧ s.FirstStop k t := by
  induction cap generalizing s with
  | zero => simp [State.run]
  | succ cap ih =>
    rw [Nat.exists_lt_succ_left, firstStop_zero_iff]
    simp only [firstStop_succ_iff, State.run]
    cases running : s.stepped.isRunning with
    | false =>
      have atOnce : some s.stepped = some t ↔ t = s.stepped ∧ t.isRunning = false :=
        ⟨by rintro ⟨⟩; exact ⟨rfl, running⟩, fun ⟨same, _⟩ => congrArg some same.symm⟩
      simpa using atOnce
    | true =>
      have notAtOnce : ¬(t = s.stepped ∧ t.isRunning = false) := by
        rintro ⟨rfl, stopped⟩
        exact absurd running (Bool.eq_false_iff.mp stopped)
      simpa [notAtOnce] using ih s.stepped

/-- Settles O49, by induction on the cap: a run either stops at its first step or is the run from
the state after it. -/
theorem runEndsAtTheFirstStop : Obligations.RunEndsAtTheFirstStop := run_eq_some_iff

end Sys2Proof.Machine

/-!
The datapath instructions (42_macro_datapath.md): NOP and the unknown opcodes (O9), LOAD and STORE
(O10, O11), the arithmetic (O12, O13), and the two instructions behind the extension gate (O20,
O21). The decoder's table is read once, by opcode number (`decodeMacroWord_macroWordOf`); then
comes what each instruction answers, in terms of the state's updates; the statements put the two
together.
-/

namespace Sys2Proof

/-! ### The decoder's table by opcode number -/

/-- The macro instruction of an opcode: the rows of the opcode table in order
(30_encoding.md R72). -/
def macroRow (opcode : BitVec 4) : Addr → Instr :=
  ![.nop, .load, .store, .add, .subtract, .multiply, .divide, .jump, .jumpzero, .jumpneg, .jumpsub,
    .ret, .loadi, .loadid, .unknown14, .unknown15] opcode.toFin

theorem macroWordOf_ne_zero {opcode : BitVec 4} {a : Addr} (h : opcode ≠ 0 ∨ a ≠ 0) :
    macroWordOf opcode a ≠ 0 := by
  intro zero
  have opcodeZero : opcode = 0 :=
    (opcodeOf_macroWordOf opcode a).symm.trans (congrArg opcodeOf zero)
  have operandZero : a = 0 :=
    (operandOf_macroWordOf opcode a).symm.trans (congrArg operandOf zero)
  exact h.elim (absurd opcodeZero) (absurd operandZero)

/-- The decoder's tests of the four opcode bits select the opcode's row. -/
theorem decodeMacroWord_macroWordOf {opcode : BitVec 4} {a : Addr} (h : opcode ≠ 0 ∨ a ≠ 0) :
    decodeMacroWord (macroWordOf opcode a) = macroRow opcode a := by
  unfold decodeMacroWord
  rw [if_neg (macroWordOf_ne_zero h), opcodeOf_macroWordOf, operandOf_macroWordOf]
  clear h
  fin_cases opcode <;> rfl

theorem decodeMacroWord_of_opcode_ne_zero {opcode : BitVec 4} (h : opcode ≠ 0) (a : Addr) :
    decodeMacroWord (macroWordOf opcode a) = macroRow opcode a :=
  decodeMacroWord_macroWordOf (.inl h)

end Sys2Proof

namespace Sys2Proof.Machine

/-! ### The gate and the checked read, by their conditions -/

/-- The extension gate passes when extensions are allowed (41_macro_cycle.md R136). -/
theorem extensionGate_of_allowed {s : State} (allowed : s.config.extAllowed = true) (opcode : Nat)
    (handler : Host.Outcome State Fault Refusal) : extensionGate opcode s handler = handler := by
  rcases extensionGate_cases opcode s handler with ⟨-, passes⟩ | ⟨disabled, -⟩
  · exact passes
  · exact absurd (allowed.symm.trans disabled) (by decide)

/-- The extension gate faults when extensions are disabled (60_exceptions.md R212). -/
theorem extensionGate_of_disabled {s : State} (disabled : s.config.extAllowed = false)
    (opcode : Nat) (handler : Host.Outcome State Fault Refusal) :
    extensionGate opcode s handler =
      .next (s.setMacStatus { code := .extendedInstructionDisabled, info := opcode }) := by
  rcases extensionGate_cases opcode s handler with ⟨allowed, -⟩ | ⟨-, faults⟩
  · exact absurd (allowed.symm.trans disabled) (by decide)
  · exact faults

theorem memRead_of_inRange {s : State} {a : Nat} (inRange : a ≤ 4095) :
    s.memRead a = .ok (s.mac.mem.read a) := by
  rcases memRead_cases s a with ⟨-, reads⟩ | ⟨above, -⟩
  · exact reads
  · omega

theorem memRead_of_above {s : State} {a : Nat} (above : 4095 < a) :
    s.memRead a = .error (.addressOutOfRange a) := by
  rcases memRead_cases s a with ⟨inRange, -⟩ | ⟨-, faults⟩
  · omega
  · exact faults

/-- The operand is zero-extended, so it keeps its value (30_encoding.md R71). -/
theorem toNat_immediateOf (a : Addr) : (immediateOf a).toNat = a.toNat :=
  BitVec.toNat_setWidth_of_le (by decide)

/-! ### What each instruction answers -/

theorem exec_nop (a : Addr) (s : State) : exec (.nop a) s = .next s.retire := rfl

theorem exec_unknown14 (a : Addr) (s : State) : exec (.unknown14 a) s = .next s.retire := rfl

theorem exec_unknown15 (a : Addr) (s : State) : exec (.unknown15 a) s = .next s.retire := rfl

theorem exec_load (a : Addr) (s : State) :
    exec (.load a) s = .next (s.setAcc (s.mac.mem.read a.toNat)).retire := rfl

theorem exec_store (a : Addr) (s : State) :
    exec (.store a) s = .next (s.storeAt a s.mac.acc).retire := rfl

theorem exec_add (a : Addr) (s : State) :
    exec (.add a) s = .next (s.setAcc (s.mac.acc + s.mac.mem.read a.toNat)).retire := by
  rw [← toWord_aluAdd]
  rfl

theorem exec_subtract (a : Addr) (s : State) :
    exec (.subtract a) s = .next (s.setAcc (s.mac.acc - s.mac.mem.read a.toNat)).retire := by
  rw [← toWord_aluSubtract]
  rfl

theorem exec_multiply (a : Addr) (s : State) :
    exec (.multiply a) s = .next (s.setAcc (s.mac.acc * s.mac.mem.read a.toNat)).retire := by
  rw [← toWord_aluMultiply]
  rfl

theorem exec_divide_of_ne_zero {a : Addr} {s : State} (nonzero : s.mac.mem.read a.toNat ≠ 0) :
    exec (.divide a) s = .next (s.setAcc (BitVec.ofInt 16 (roundedQuotient s.config.divRound
      s.mac.acc.toInt (s.mac.mem.read a.toNat).toInt))).retire := by
  change execDivide a s = _
  rw [execDivide, valueAt_eq]
  rcases aluFloorDivide_cases s.config.divRound s.mac.acc (s.mac.mem.read a.toNat) with
    ⟨zero, -⟩ | ⟨-, q, answers, quotient⟩
  · exact absurd zero nonzero
  · rw [answers, ← quotient]

/-- DIVIDE by a cell that holds 0 takes DivideByZero (60_exceptions.md R211). -/
theorem exec_divide_of_zero {a : Addr} {s : State} (zero : s.mac.mem.read a.toNat = 0) :
    exec (.divide a) s = .next (s.setMacStatus { code := .divideByZero, info := a.toNat }) := by
  change execDivide a s = _
  rw [execDivide, valueAt_eq]
  rcases aluFloorDivide_cases s.config.divRound s.mac.acc (s.mac.mem.read a.toNat) with
    ⟨-, fails⟩ | ⟨nonzero, -⟩
  · rw [fails, takeFault_eq, Fault.status]
  · exact absurd zero nonzero

theorem exec_loadi_of_allowed {s : State} (allowed : s.config.extAllowed = true) (a : Addr) :
    exec (.loadi a) s = .next (s.setAcc (immediateOf a)).retire :=
  extensionGate_of_allowed allowed 12 _

theorem exec_loadi_of_disabled {s : State} (disabled : s.config.extAllowed = false) (a : Addr) :
    exec (.loadi a) s =
      .next (s.setMacStatus { code := .extendedInstructionDisabled, info := 12 }) :=
  extensionGate_of_disabled disabled 12 _

section
variable {s : State} {a : Addr}

theorem exec_loadid_of_inRange (allowed : s.config.extAllowed = true)
    (inRange : (s.mac.mem.read a.toNat).toNat ≤ 4095) :
    exec (.loadid a) s =
      .next (s.setAcc (s.mac.mem.read (s.mac.mem.read a.toNat).toNat)).retire := by
  change execLoadid a s = _
  rw [execLoadid, extensionGate_of_allowed allowed, valueAt_eq, memRead_of_inRange inRange]

/-- LOADID through a pointer outside M takes AddressOutOfRange with the pointer
(42_macro_datapath.md R161, decision D12). -/
theorem exec_loadid_of_above (allowed : s.config.extAllowed = true)
    (above : 4095 < (s.mac.mem.read a.toNat).toNat) :
    exec (.loadid a) s = .next (s.setMacStatus
      { code := .addressOutOfRange, info := (s.mac.mem.read a.toNat).toNat }) := by
  change execLoadid a s = _
  rw [execLoadid, extensionGate_of_allowed allowed, valueAt_eq, memRead_of_above above]
  exact takeFault_eq _ s

theorem exec_loadid_of_disabled (disabled : s.config.extAllowed = false) :
    exec (.loadid a) s =
      .next (s.setMacStatus { code := .extendedInstructionDisabled, info := 13 }) :=
  extensionGate_of_disabled disabled 13 _

end

/-! ### The statements -/

/-- Settles O11: the write rules of M give the operand cell and every other cell. -/
theorem storeWritesTheOperandCell : Obligations.StoreWritesTheOperandCell := by
  intro a s
  refine ⟨decodeMacroWord_store a, _, exec_store a s, rfl, fun x other => ?_, fun canonical => ?_⟩
  · exact read_write_other _ _ _ _ other
  · obtain ⟨rising, -⟩ := canonical
    exact read_write_same _ rising _ _

/-- Settles O12: at width 16 the FWW ALU's sum, difference and product are those of `BitVec 16`. -/
theorem arithmeticWrapsAtSixteenBits : Obligations.ArithmeticWrapsAtSixteenBits := by
  intro a s
  exact ⟨decodeMacroWord_of_opcode_ne_zero (by decide) a,
    decodeMacroWord_of_opcode_ne_zero (by decide) a,
    decodeMacroWord_of_opcode_ne_zero (by decide) a,
    exec_add a s, exec_subtract a s, exec_multiply a s⟩

/-- Settles O13, by whether the divisor cell holds 0. -/
theorem divideGivesTheRoundedQuotient : Obligations.DivideGivesTheRoundedQuotient := by
  intro a s
  refine ⟨decodeMacroWord_of_opcode_ne_zero (by decide) a, fun nonzero => ?_, exec_divide_of_zero⟩
  rw [exec_divide_of_ne_zero nonzero, roundedQuotient_eq]
  rfl

/-- Settles O20, by whether the gate passes. -/
theorem loadiLoadsTheOperand : Obligations.LoadiLoadsTheOperand := by
  intro a s
  refine ⟨decodeMacroWord_of_opcode_ne_zero (by decide) a, fun allowed => ?_, fun disabled => ?_⟩
  · exact ⟨_, exec_loadi_of_allowed allowed a, toNat_immediateOf a, rfl⟩
  · exact exec_loadi_of_disabled disabled a

/-- Settles O21, by whether the gate passes and where the pointer leads. -/
theorem loadidFollowsThePointer : Obligations.LoadidFollowsThePointer := by
  intro a s
  exact ⟨decodeMacroWord_of_opcode_ne_zero (by decide) a, exec_loadid_of_inRange,
    exec_loadid_of_above, exec_loadid_of_disabled⟩

/-- Settles O9: the rows of opcodes 0, 14 and 15 retire and do nothing else. -/
theorem nopRowsOnlyAdvancePc : Obligations.NopRowsOnlyAdvancePc := by
  intro a s
  refine ⟨fun nonzero => decodeMacroWord_macroWordOf (.inr nonzero),
    decodeMacroWord_of_opcode_ne_zero (by decide) a,
    decodeMacroWord_of_opcode_ne_zero (by decide) a, ?_⟩
  simp only [List.forall_mem_cons]
  exact ⟨exec_nop a s, exec_unknown14 a s, exec_unknown15 a s, List.forall_mem_nil _⟩

/-- Settles O10: LOAD retires with the pre-fetched cell in ACC. -/
theorem loadCopiesTheOperandCell : Obligations.LoadCopiesTheOperandCell := by
  intro a s
  exact ⟨decodeMacroWord_of_opcode_ne_zero (by decide) a, exec_load a s⟩

end Sys2Proof.Machine

/-!
The control transfers (43_macro_control.md): JUMP (O15), the two conditional jumps (O16), JUMPSUB
(O17) and RETURN (O18), and the calling convention that the last two make together (O19). Each
ends in one write of PC; first comes what each instruction answers, then the statements.
-/

namespace Sys2Proof.Machine

/-! ### The tests and the return address -/

/-- The top bit of a word is its sign (43_macro_control.md R173). -/
theorem topBitSet_eq (v : Word) : topBitSet v = decide (v.toInt < 0) := by
  rw [← isSignedNegative_eq, isSignedNegative, signedView_eq]

/-- PC + 1 fits in a cell from every PC that a fetch accepts. -/
theorem toNat_returnAddress {s : State} (inRange : s.mac.pc ≤ 4095) :
    (returnAddress s).toNat = s.mac.pc + 1 := by
  rw [returnAddress, BitVec.toNat_ofNat]
  omega

/-! ### What each control transfer answers -/

theorem exec_jump (a : Addr) (s : State) :
    exec (.jump a) s = .next (s.setPc a.toNat).continueMacro := rfl

/-- A conditional jump writes PC on both branches: the target, or the advanced PC
(43_macro_control.md R170). -/
theorem jump_or_retire_eq (p : Prop) [Decidable p] (a : Addr) (s : State) :
    (if p then .next (s.setPc a.toNat).continueMacro else .next s.retire :
      Host.Outcome State Fault Refusal) =
      .next (s.setPc (if p then a.toNat else s.mac.pc + 1)).continueMacro := by
  by_cases taken : p
  · rw [if_pos taken, if_pos taken]
  · rw [if_neg taken, if_neg taken]
    rfl

theorem exec_jumpzero (a : Addr) (s : State) :
    exec (.jumpzero a) s =
      .next (s.setPc (if s.mac.acc = 0 then a.toNat else s.mac.pc + 1)).continueMacro := by
  change execJumpzero a s = _
  simp only [execJumpzero, wordIsZero_eq, decide_eq_true_eq]
  exact jump_or_retire_eq (s.mac.acc = 0) a s

theorem exec_jumpneg (a : Addr) (s : State) :
    exec (.jumpneg a) s =
      .next (s.setPc (if s.mac.acc.toInt < 0 then a.toNat else s.mac.pc + 1)).continueMacro := by
  change execJumpneg a s = _
  simp only [execJumpneg, topBitSet_eq, decide_eq_true_eq]
  exact jump_or_retire_eq (s.mac.acc.toInt < 0) a s

theorem exec_jumpsub (a : Addr) (s : State) :
    exec (.jumpsub a) s =
      .next ((s.storeAt a (returnAddress s)).setPc (a.toNat + 1)).continueMacro := rfl

theorem exec_ret (a : Addr) (s : State) :
    exec (.ret a) s = .next (s.setPc (s.mac.mem.read a.toNat).toNat).continueMacro := rfl

/-! ### The statements -/

/-- Settles O17: the write rules of M give the operand cell and every other cell, and the return
address fits in the cell. -/
theorem jumpsubStoresTheReturnAddress : Obligations.JumpsubStoresTheReturnAddress := by
  intro a s
  refine ⟨decodeMacroWord_of_opcode_ne_zero (by decide) a, _, exec_jumpsub a s, rfl,
    fun x other => ?_, fun canonical inRange => ?_⟩
  · exact read_write_other _ _ _ _ other
  · obtain ⟨rising, -⟩ := canonical
    calc ((s.mac.mem.write a.toNat (returnAddress s)).read a.toNat).toNat
      _ = (returnAddress s).toNat := by rw [read_write_same _ rising]
      _ = s.mac.pc + 1 := toNat_returnAddress inRange

/-- Settles O18: PC takes the pre-fetched cell. -/
theorem returnLoadsPc : Obligations.ReturnLoadsPc := by
  intro a s
  exact ⟨decodeMacroWord_of_opcode_ne_zero (by decide) a, exec_ret a s⟩

/-- Settles O19 from what the call stores (O17) and what the return loads (O18). -/
theorem returnGoesBackToTheCaller : Obligations.ReturnGoesBackToTheCaller := by
  intro a s canonical inRange
  obtain ⟨-, t, calls, frame, -, stored⟩ := jumpsubStoresTheReturnAddress a s
  refine ⟨t, calls, congrArg (·.mac.pc) frame, fun u holds => ?_⟩
  obtain ⟨-, returns⟩ := returnLoadsPc a u
  refine ⟨_, returns, ?_⟩
  calc (u.mac.mem.read a.toNat).toNat
    _ = (t.mac.mem.read a.toNat).toNat := by rw [holds]
    _ = s.mac.pc + 1 := stored canonical inRange

/-- Settles O16, by the tests of ACC as facts about the word. -/
theorem conditionalJumpsTestAcc : Obligations.ConditionalJumpsTestAcc := by
  intro a s
  exact ⟨decodeMacroWord_of_opcode_ne_zero (by decide) a,
    decodeMacroWord_of_opcode_ne_zero (by decide) a, exec_jumpzero a s, exec_jumpneg a s⟩

/-- Settles O15: JUMP writes PC and continues. -/
theorem jumpSetsPc : Obligations.JumpSetsPc := by
  intro a s
  exact ⟨decodeMacroWord_of_opcode_ne_zero (by decide) a, exec_jump a s⟩

end Sys2Proof.Machine

/-!
The micro sequencer (44_micro_sequencer.md). Every row of a control word completes with
`afterControlWord` (`exec_rowOfBit_eq_after`), so each statement about a row is a fact about that
closed form. Those facts come first: the two buses of phase 1 and the ALU-1 result that a latched
register takes (O27, O28, O31), the cell at MAR (O29), and the next address by the bits of cb17 to
cb22 (O30, O32). The micro step itself (O35, O36) comes last.
-/

namespace Sys2Proof.Machine

/-! ### What a control word answers -/

/-- The cycle of a control word in closed form (44_micro_sequencer.md R181 to R197). -/
theorem runControlWord_eq_after (s : State) (w : ControlWord) :
    s.runControlWord w = afterControlWord w s := by
  rw [State.runControlWord, microCycle_eq]
  rfl

theorem exec_rowOfBit_eq_after (b : ControlBit) (w : ControlWord) (s : State) :
    exec (rowOfBit b w) s = .next (afterControlWord w s) := by
  rw [exec_rowOfBit, runControlWord_eq_after]

theorem exec_decodeControlWord_of_ne_zero {w : ControlWord} (nonzero : w ≠ 0) (s : State) :
    exec (decodeControlWord w) s = .next (afterControlWord w s) := by
  obtain ⟨b, lead⟩ := Option.ne_none_iff_exists'.mp (mt eq_zero_of_leadBit_eq_none nonzero)
  rw [decodeControlWord, lead]
  exact exec_rowOfBit_eq_after b w s

theorem ne_zero_of_hasBit {w : ControlWord} {b : ControlBit} (set : hasBit w b = true) :
    w ≠ 0 := by
  rintro rfl
  simp [hasBit] at set

/-! ### The buses of phase 1 -/

section
variable {w : ControlWord} {m : MicroMachine}

theorem selectedV2_of_cb4 (set : hasBit w .cb4 = true) : selectedV2 w m = m.d :=
  if_pos set

theorem selectedV2_of_cb3 (set : hasBit w .cb3 = true) (no4 : hasBit w .cb4 = false) :
    selectedV2 w m = m.c := by
  simp [selectedV2, set, no4]

theorem selectedV2_of_cb2 (set : hasBit w .cb2 = true) (no3 : hasBit w .cb3 = false)
    (no4 : hasBit w .cb4 = false) : selectedV2 w m = m.b := by
  simp [selectedV2, set, no3, no4]

theorem selectedV2_of_cb1 (set : hasBit w .cb1 = true) (no2 : hasBit w .cb2 = false)
    (no3 : hasBit w .cb3 = false) (no4 : hasBit w .cb4 = false) : selectedV2 w m = m.a := by
  simp [selectedV2, set, no2, no3, no4]

/-- A bus that no bit drives carries 0 (decision D17). -/
theorem selectedV2_of_none (no1 : hasBit w .cb1 = false) (no2 : hasBit w .cb2 = false)
    (no3 : hasBit w .cb3 = false) (no4 : hasBit w .cb4 = false) : selectedV2 w m = 0 := by
  simp [selectedV2, no1, no2, no3, no4]

theorem selectedV1_of_cb6 (set : hasBit w .cb6 = true) : selectedV1 w m = m.mdr :=
  if_pos set

theorem selectedV1_of_cb5 (set : hasBit w .cb5 = true) (no6 : hasBit w .cb6 = false) :
    selectedV1 w m = 1 := by
  simp [selectedV1, set, no6]

theorem selectedV1_of_none (no5 : hasBit w .cb5 = false) (no6 : hasBit w .cb6 = false) :
    selectedV1 w m = 0 := by
  simp [selectedV1, no5, no6]

/-! ### The ALU-1 result and the registers that latch it -/

/-- ALU-1 on the values its two buses carry (44_micro_sequencer.md R185). -/
theorem aluOneResult_of_buses {v1 v2 : Word} (onV1 : selectedV1 w m = v1)
    (onV2 : selectedV2 w m = v2) :
    aluOneResult w m =
      ((if hasBit w .cb7 then -v1 else v1) + v2) * (if hasBit w .cb8 then 2 else 1) := by
  rw [aluOneResult, onV1, onV2]

/-- Without cb7 and cb8, ALU-1 adds. -/
theorem aluOneResult_plain (no7 : hasBit w .cb7 = false) (no8 : hasBit w .cb8 = false) :
    aluOneResult w m = selectedV1 w m + selectedV2 w m := by
  simp [aluOneResult, no7, no8]

/-- cb7 alone subtracts V1 from V2. -/
theorem aluOneResult_of_cb7 (set : hasBit w .cb7 = true) (no8 : hasBit w .cb8 = false) :
    aluOneResult w m = selectedV2 w m - selectedV1 w m := by
  simp [aluOneResult, set, no8, BitVec.sub_eq_add_neg, BitVec.add_comm]

/-- cb8 alone doubles the sum. -/
theorem aluOneResult_of_cb8 (set : hasBit w .cb8 = true) (no7 : hasBit w .cb7 = false) :
    aluOneResult w m = 2 * (selectedV1 w m + selectedV2 w m) := by
  simp [aluOneResult, set, no7, BitVec.mul_comm]

theorem latched_of_set {latch : ControlBit} (set : hasBit w latch = true) (old : Word) :
    latched w m latch old = aluOneResult w m :=
  if_pos set

/-- MAR keeps the low 12 bits of the ALU-1 result (44_micro_sequencer.md R187). -/
theorem toNat_marAfter_of_cb14 (set : hasBit w .cb14 = true) :
    (marAfter w m).toNat = (aluOneResult w m).toNat % 4096 := by
  rw [marAfter, if_pos set, BitVec.toNat_setWidth]

theorem mdrAfter_of_cb15 (set : hasBit w .cb15 = true) :
    mdrAfter w m = m.um.read (marAfter w m).toNat :=
  if_pos set

theorem mdrAfter_of_not_cb15 (no15 : hasBit w .cb15 = false) :
    mdrAfter w m = latched w m .cb13 m.mdr := by
  simp [mdrAfter, no15]

end

/-! ### The rows of phases 1 and 2 -/

/-- Settles O27: in a word that latches A, A is the ALU-1 result, and the row's own bit says what is
on its bus or what ALU-1 does. -/
theorem phaseOneRowsFeedTheAlu : Obligations.PhaseOneRowsFeedTheAlu := by
  intro w s alu
  have latches (latch : hasBit w .cb9 = true) :
      (afterControlWord w s).mic.a = aluOneResult w s.mic := latched_of_set latch _
  refine ⟨⟨_, exec_rowOfBit_eq_after .cb1 w s, rfl, fun latch set no2 no3 no4 => ?_⟩,
    ⟨_, exec_rowOfBit_eq_after .cb2 w s, rfl, fun latch set no3 no4 => ?_⟩,
    ⟨_, exec_rowOfBit_eq_after .cb3 w s, rfl, fun latch set no4 => ?_⟩,
    ⟨_, exec_rowOfBit_eq_after .cb4 w s, rfl, fun latch set => ?_⟩,
    ⟨_, exec_rowOfBit_eq_after .cb5 w s, rfl, fun latch set no6 => ?_⟩,
    ⟨_, exec_rowOfBit_eq_after .cb6 w s, rfl, fun latch set => ?_⟩,
    ⟨_, exec_rowOfBit_eq_after .cb7 w s, rfl, fun latch set no8 => ?_⟩,
    ⟨_, exec_rowOfBit_eq_after .cb8 w s, rfl, fun latch set no7 => ?_⟩⟩
  · exact (latches latch).trans (aluOneResult_of_buses rfl (selectedV2_of_cb1 set no2 no3 no4))
  · exact (latches latch).trans (aluOneResult_of_buses rfl (selectedV2_of_cb2 set no3 no4))
  · exact (latches latch).trans (aluOneResult_of_buses rfl (selectedV2_of_cb3 set no4))
  · exact (latches latch).trans (aluOneResult_of_buses rfl (selectedV2_of_cb4 set))
  · exact (latches latch).trans (aluOneResult_of_buses (selectedV1_of_cb5 set no6) rfl)
  · exact (latches latch).trans (aluOneResult_of_buses (selectedV1_of_cb6 set) rfl)
  · exact (latches latch).trans (aluOneResult_of_cb7 set no8)
  · exact (latches latch).trans (aluOneResult_of_cb8 set no7)

/-- Settles O31: with cb7 and cb8 clear A takes the sum of the two buses, one of which carries 0. -/
theorem highestSourceBitWins : Obligations.HighestSourceBitWins := by
  intro w s latch no7 no8
  have sum : (afterControlWord w s).mic.a = selectedV1 w s.mic + selectedV2 w s.mic :=
    (latched_of_set latch _).trans (aluOneResult_plain no7 no8)
  refine ⟨_, exec_decodeControlWord_of_ne_zero (ne_zero_of_hasBit latch) s,
    fun no5 no6 => ?_, fun no1 no2 no3 no4 => ?_⟩
  · rw [sum, selectedV1_of_none no5 no6]
    exact BitVec.zero_add _
  · rw [sum, selectedV2_of_none no1 no2 no3 no4]
    exact BitVec.add_zero _

/-- Settles O28: each latch bit puts the ALU-1 result in its own register, by the closed form of
that register. -/
theorem latchRowsWriteTheirRegister : Obligations.LatchRowsWriteTheirRegister := by
  intro w s
  exact ⟨
    fun set => ⟨_, exec_rowOfBit_eq_after .cb9 w s, rfl, latched_of_set set _⟩,
    fun set => ⟨_, exec_rowOfBit_eq_after .cb10 w s, rfl, latched_of_set set _⟩,
    fun set => ⟨_, exec_rowOfBit_eq_after .cb11 w s, rfl, latched_of_set set _⟩,
    fun set => ⟨_, exec_rowOfBit_eq_after .cb12 w s, rfl, latched_of_set set _⟩,
    fun set => ⟨_, exec_rowOfBit_eq_after .cb13 w s, rfl,
      fun no15 => (mdrAfter_of_not_cb15 no15).trans (latched_of_set set _)⟩,
    fun set => ⟨_, exec_rowOfBit_eq_after .cb14 w s, rfl, toNat_marAfter_of_cb14 set⟩⟩

/-! ### The rows of phase 3 -/

theorem afterControlWord_um_of_cb16 {w : ControlWord} (set : hasBit w .cb16 = true) (s : State) :
    (afterControlWord w s).mic.um = s.mic.um.write (marAfter w s.mic).toNat (mdrAfter w s.mic) :=
  if_pos set

theorem afterControlWord_um_of_not_cb16 {w : ControlWord} (no16 : hasBit w .cb16 = false)
    (s : State) : (afterControlWord w s).mic.um = s.mic.um := by
  simp [afterControlWord, no16]

/-- Writing back what a cell holds changes no cell. -/
theorem read_write_read {n bound : Nat} {mem : Memory n} (canonical : mem.wf bound) (a x : Nat) :
    (mem.write a (mem.read a)).read x = mem.read x := by
  obtain ⟨rising, -⟩ := canonical
  by_cases same : x = a
  · rw [same, read_write_same mem rising]
  · exact read_write_other mem a x _ same

/-- Settles O29 by the read and write rules of UM at MAR; with both bits set the cell is written
with what was read from it. -/
theorem memoryRowsAccessTheCellAtMar : Obligations.MemoryRowsAccessTheCellAtMar := by
  intro w s canonical
  have ⟨rising, _⟩ := canonical
  refine ⟨fun reads => ⟨_, exec_rowOfBit_eq_after .cb15 w s, rfl, mdrAfter_of_cb15 reads,
      fun no16 => afterControlWord_um_of_not_cb16 no16 s⟩,
    fun writes => ⟨_, exec_rowOfBit_eq_after .cb16 w s, rfl, ?_⟩⟩
  rw [afterControlWord_um_of_cb16 writes]
  refine ⟨read_write_same _ rising _ _, fun x other => read_write_other _ _ _ _ other,
    fun reads x => ?_⟩
  rw [mdrAfter_of_cb15 reads]
  exact read_write_read canonical _ x

/-! ### The next address -/

/-- What the selected displacement is added to: MPC under cb22, else 0 (44_micro_sequencer.md
R196). -/
def sequencingBase (w : ControlWord) (m : MicroMachine) : MicroAddr :=
  if hasBit w .cb22 then m.mpc else 0

section
variable {map : Lit8Map} {w : ControlWord} {m : MicroMachine}

theorem sequencingBase_of_cb22 (set : hasBit w .cb22 = true) : sequencingBase w m = m.mpc :=
  if_pos set

theorem sequencingBase_of_not_cb22 (no22 : hasBit w .cb22 = false) : sequencingBase w m = 0 := by
  simp [sequencingBase, no22]

/-- The next address is the low byte of V1 plus the base: the sum wraps at 8 bits (decision D20). -/
theorem mpcAfter_eq_add_base (map : Lit8Map) (w : ControlWord) (m : MicroMachine) :
    mpcAfter map w m = (sequencingV1 map w m).setWidth 8 + sequencingBase w m := by
  rw [mpcAfter, sequencingV2, sequencingBase, BitVec.setWidth_add _ _ (by decide)]
  split
  · rw [BitVec.setWidth_setWidth_of_le _ (by decide), BitVec.setWidth_eq]
  · rfl

theorem mpcAfter_of_cb21 (set : hasBit w .cb21 = true) :
    mpcAfter map w m =
      ((mdrAfter w m).extractLsb' 12 4).setWidth 8 + sequencingBase w m := by
  rw [mpcAfter_eq_add_base, sequencingV1, if_pos set, BitVec.setWidth_setWidth_of_le _ (by decide)]

theorem mpcAfter_of_cb20 (set : hasBit w .cb20 = true) (no21 : hasBit w .cb21 = false) :
    mpcAfter map w m = (if (latched w m .cb9 m.a).msb then 1 else 2) + sequencingBase w m := by
  have onV1 : sequencingV1 map w m = if (latched w m .cb9 m.a).msb then 1 else 2 := by
    simp [sequencingV1, set, no21]
  rw [mpcAfter_eq_add_base, onV1]
  split <;> rfl

theorem mpcAfter_of_cb19 (set : hasBit w .cb19 = true) (no20 : hasBit w .cb20 = false)
    (no21 : hasBit w .cb21 = false) :
    mpcAfter map w m = (if latched w m .cb9 m.a = 0 then 1 else 2) + sequencingBase w m := by
  have onV1 : sequencingV1 map w m = if latched w m .cb9 m.a = 0 then 1 else 2 := by
    simp [sequencingV1, set, no20, no21]
  rw [mpcAfter_eq_add_base, onV1]
  split <;> rfl

theorem mpcAfter_of_cb18 (set : hasBit w .cb18 = true) (no19 : hasBit w .cb19 = false)
    (no20 : hasBit w .cb20 = false) (no21 : hasBit w .cb21 = false) :
    mpcAfter map w m = lit8 map w + sequencingBase w m := by
  have onV1 : sequencingV1 map w m = (lit8 map w).setWidth 16 := by
    simp [sequencingV1, set, no19, no20, no21]
  rw [mpcAfter_eq_add_base, onV1, BitVec.setWidth_setWidth_of_le _ (by decide), BitVec.setWidth_eq]

theorem mpcAfter_of_cb17 (set : hasBit w .cb17 = true) (no18 : hasBit w .cb18 = false)
    (no19 : hasBit w .cb19 = false) (no20 : hasBit w .cb20 = false)
    (no21 : hasBit w .cb21 = false) : mpcAfter map w m = 1 + sequencingBase w m := by
  have onV1 : sequencingV1 map w m = 1 := by
    simp [sequencingV1, set, no18, no19, no20, no21]
  rw [mpcAfter_eq_add_base, onV1]
  rfl

/-- Without cb17 to cb21 the next address is the base alone (decision D17). -/
theorem mpcAfter_of_none (no17 : hasBit w .cb17 = false) (no18 : hasBit w .cb18 = false)
    (no19 : hasBit w .cb19 = false) (no20 : hasBit w .cb20 = false)
    (no21 : hasBit w .cb21 = false) : mpcAfter map w m = sequencingBase w m := by
  have onV1 : sequencingV1 map w m = 0 := by
    simp [sequencingV1, no17, no18, no19, no20, no21]
  rw [mpcAfter_eq_add_base, onV1]
  exact BitVec.zero_add _

/-- The dispatch address as a number: the opcode field of MDR above the base. -/
theorem toNat_mpcAfter_of_cb21 (set : hasBit w .cb21 = true) :
    (mpcAfter map w m).toNat =
      ((mdrAfter w m).toNat / 4096 + (sequencingBase w m).toNat) % 256 := by
  have field : ((mdrAfter w m).extractLsb' 12 4).toNat = (mdrAfter w m).toNat / 2 ^ 12 % 2 ^ 4 :=
    toNat_opcodeOf _
  have bound := (mdrAfter w m).isLt
  rw [mpcAfter_of_cb21 set, BitVec.toNat_add, BitVec.toNat_setWidth, field]
  omega

end

/-- Settles O30: the highest-numbered bit of cb17 to cb21 that the word sets gives the
displacement. -/
theorem sequencingRowsSelectTheNextAddress : Obligations.SequencingRowsSelectTheNextAddress := by
  intro w s base
  refine ⟨fun set => ⟨_, exec_rowOfBit_eq_after .cb17 w s, rfl, mpcAfter_of_cb17 set⟩,
    fun set => ⟨_, exec_rowOfBit_eq_after .cb18 w s, rfl, mpcAfter_of_cb18 set⟩,
    fun set => ⟨_, exec_rowOfBit_eq_after .cb19 w s, rfl, mpcAfter_of_cb19 set⟩,
    fun set => ⟨_, exec_rowOfBit_eq_after .cb20 w s, rfl, fun no21 => ?_⟩,
    fun set => ⟨_, exec_rowOfBit_eq_after .cb21 w s, rfl, toNat_mpcAfter_of_cb21 set⟩,
    fun set => ⟨_, exec_rowOfBit_eq_after .cb22 w s, rfl, fun no17 no18 no19 no20 no21 => ?_⟩⟩
  · refine (mpcAfter_of_cb20 set no21).trans ?_
    simp only [BitVec.msb_eq_toInt, decide_eq_true_eq]
    rfl
  · exact (mpcAfter_of_none no17 no18 no19 no20 no21).trans (sequencingBase_of_cb22 set)

/-! ### The sequencing idioms -/

/-- A filter of a list of bits tells of each of them whether the word sets it. -/
theorem hasBit_eq_of_filter_eq {w : ControlWord} {candidates bits : List ControlBit}
    (listed : candidates.filter (hasBit w) = bits) {b : ControlBit} (candidate : b ∈ candidates) :
    hasBit w b = decide (b ∈ bits) := by
  rw [← listed]
  simp [candidate]

/-- A conditional skip from the base, as the two addresses it chooses between. -/
theorem skip_add_base (p : Prop) [Decidable p] (base : MicroAddr) :
    (if p then 1 else 2) + base = if p then base + 1 else base + 2 := by
  split <;> exact BitVec.add_comm _ _

/-- Settles O32: the listed bits decide which of cb17 to cb22 are set, and the next address follows
from the row of the highest of them. -/
theorem sequencingIdiomsGiveTheNextMpc : Obligations.SequencingIdiomsGiveTheNextMpc := by
  intro w s nonzero
  refine ⟨_, exec_decodeControlWord_of_ne_zero nonzero s, ?_⟩
  intro bits
  have bit {shown : List ControlBit} (listed : bits = shown) {b : ControlBit}
      (candidate : b ∈ [ControlBit.cb17, .cb18, .cb19, .cb20, .cb21, .cb22] := by decide) :
      hasBit w b = decide (b ∈ shown) := hasBit_eq_of_filter_eq listed candidate
  refine ⟨fun noBit => ?noBit, fun only22 => ?only22, fun only17 => ?only17, fun both => ?seq,
    fun only18 => ?only18, fun both => ?literal, fun both => ?zero, fun both => ?negative,
    fun both => ?opcode⟩
  case noBit =>
    exact (mpcAfter_of_none (bit noBit) (bit noBit) (bit noBit) (bit noBit) (bit noBit)).trans
      (sequencingBase_of_not_cb22 (bit noBit))
  case only22 =>
    exact (mpcAfter_of_none (bit only22) (bit only22) (bit only22) (bit only22) (bit only22)).trans
      (sequencingBase_of_cb22 (bit only22))
  case only17 =>
    refine (mpcAfter_of_cb17 (bit only17) (bit only17) (bit only17) (bit only17)
      (bit only17)).trans ?_
    rw [sequencingBase_of_not_cb22 (bit only17)]
    rfl
  case seq =>
    refine (mpcAfter_of_cb17 (bit both) (bit both) (bit both) (bit both) (bit both)).trans ?_
    rw [sequencingBase_of_cb22 (bit both)]
    exact BitVec.add_comm _ _
  case only18 =>
    refine (mpcAfter_of_cb18 (bit only18) (bit only18) (bit only18) (bit only18)).trans ?_
    rw [sequencingBase_of_not_cb22 (bit only18)]
    exact BitVec.add_zero _
  case literal =>
    refine (mpcAfter_of_cb18 (bit both) (bit both) (bit both) (bit both)).trans ?_
    rw [sequencingBase_of_cb22 (bit both)]
    exact BitVec.add_comm _ _
  case zero =>
    refine (mpcAfter_of_cb19 (bit both) (bit both) (bit both)).trans ?_
    rw [sequencingBase_of_cb22 (bit both)]
    exact skip_add_base _ _
  case negative =>
    refine (mpcAfter_of_cb20 (bit both) (bit both)).trans ?_
    rw [sequencingBase_of_cb22 (bit both)]
    exact skip_add_base _ _
  case opcode =>
    refine (mpcAfter_of_cb21 (bit both)).trans ?_
    rw [sequencingBase_of_cb22 (bit both)]
    exact BitVec.add_comm _ _

/-! ### The micro step -/

theorem exec_cwHalt (s : State) :
    exec .cwHalt s = .next (s.setMicStatus { code := .halted, info := s.mic.mpc.toNat }) := rfl

/-- Settles O36: a step runs its control word or, at the zero word, halts. -/
theorem noControlWordFaults : Obligations.NoControlWordFaults := by
  intro s turn
  rw [step_microMachine turn]
  by_cases zero : s.mic.mir = 0
  · exact ⟨_, stepMicro_of_zero zero, fun nonzero => absurd zero nonzero, fun _ => rfl⟩
  · exact ⟨_, stepMicro_of_ne_zero zero, fun _ => rfl, fun isZero => absurd isZero zero⟩

/-- Settles O35: no bit of the zero word is set, and the halt sentinel writes STATUS. -/
theorem zeroControlWordHalts : Obligations.ZeroControlWordHalts :=
  ⟨rfl, exec_cwHalt, fun _ turn zero => (step_microMachine turn).trans (stepMicro_of_zero zero)⟩

end Sys2Proof.Machine

/-!
The faults and the halt of a macro step as a whole (60_exceptions.md): DivideByZero (O14), the
disabled extensions (O22), the priority of the checks (O23), and that a step which stops is precise
and repeats (O24). First comes what a step answers in each case of the priority, one rule per case;
the cases of `macroStatusAfter` are then these rules.
-/

namespace Sys2Proof

/-- Every word but zero is the row of its opcode at its operand (30_encoding.md R72). -/
theorem decodeMacroWord_of_ne_zero {w : Word} (nonzero : w ≠ 0) :
    decodeMacroWord w = macroRow (opcodeOf w) (operandOf w) := by
  have fields : opcodeOf w ≠ 0 ∨ operandOf w ≠ 0 := by
    by_contra bothZero
    obtain ⟨opcode, operand⟩ := not_or.mp bothZero
    apply nonzero
    rw [← macroWordOf_fields w, not_not.mp opcode, not_not.mp operand]
    rfl
  rw [← decodeMacroWord_macroWordOf fields, macroWordOf_fields]

end Sys2Proof

namespace Sys2Proof.Machine

/-! ### What a macro step answers, by the checks in their order -/

section
variable {s : State}

/-- A macro step that fetches a word other than zero runs the row of its opcode
(41_macro_cycle.md R134). -/
theorem stepMacro_of_ne_zero (inRange : s.mac.pc ≤ 4095) (nonzero : fetchedWord s ≠ 0) :
    stepMacro s = exec (macroRow (opcodeOf (fetchedWord s)) (operandOf (fetchedWord s)))
      (s.setIr (fetchedWord s)) := by
  rw [stepMacro_of_inRange (by omega), decodeMacroWord_of_ne_zero nonzero]

theorem stepMacro_of_opcode {opcode : BitVec 4} (inRange : s.mac.pc ≤ 4095)
    (fetched : opcodeOf (fetchedWord s) = opcode) (named : opcode ≠ 0) :
    stepMacro s =
      exec (macroRow opcode (operandOf (fetchedWord s))) (s.setIr (fetchedWord s)) := by
  have nonzero : fetchedWord s ≠ 0 := fun zero =>
    named (fetched.symm.trans (congrArg opcodeOf zero))
  rw [stepMacro_of_ne_zero inRange nonzero, fetched]

/-- The fetched zero word halts (41_macro_cycle.md R133). -/
theorem stepMacro_of_zero (inRange : s.mac.pc ≤ 4095) (zero : fetchedWord s = 0) :
    stepMacro s = .next ((s.setIr 0).setMacStatus { code := .halted, info := s.mac.pc }) := by
  rw [stepMacro_of_inRange (by omega), zero, decodeMacroWord_zero, exec_haltWord, setIr_mac_pc]

/-- The extension gate stops a fetched LOADI or LOADID (60_exceptions.md R212). -/
theorem stepMacro_of_disabled {opcode : BitVec 4} (inRange : s.mac.pc ≤ 4095)
    (fetched : opcodeOf (fetchedWord s) = opcode) (gated : opcode = 12 ∨ opcode = 13)
    (disabled : s.config.extAllowed = false) :
    stepMacro s = .next ((s.setIr (fetchedWord s)).setMacStatus
      { code := .extendedInstructionDisabled, info := opcode.toNat }) := by
  rcases gated with rfl | rfl
  · rw [stepMacro_of_opcode inRange fetched (by decide)]
    exact exec_loadi_of_disabled (s := s.setIr (fetchedWord s)) disabled _
  · rw [stepMacro_of_opcode inRange fetched (by decide)]
    exact exec_loadid_of_disabled (s := s.setIr (fetchedWord s)) disabled

/-- A fetched DIVIDE by a cell that holds 0 stops (60_exceptions.md R211). -/
theorem stepMacro_of_zero_divisor (inRange : s.mac.pc ≤ 4095)
    (divide : opcodeOf (fetchedWord s) = 6)
    (zero : s.mac.mem.read (operandOf (fetchedWord s)).toNat = 0) :
    stepMacro s = .next ((s.setIr (fetchedWord s)).setMacStatus
      { code := .divideByZero, info := (operandOf (fetchedWord s)).toNat }) := by
  rw [stepMacro_of_opcode inRange divide (by decide)]
  exact exec_divide_of_zero (s := s.setIr (fetchedWord s)) zero

/-- A fetched LOADID through a pointer outside M stops (60_exceptions.md R213). -/
theorem stepMacro_of_pointer_above (inRange : s.mac.pc ≤ 4095)
    (loadid : opcodeOf (fetchedWord s) = 13) (allowed : s.config.extAllowed = true)
    (above : 4095 < (s.mac.mem.read (operandOf (fetchedWord s)).toNat).toNat) :
    stepMacro s = .next ((s.setIr (fetchedWord s)).setMacStatus
      { code := .addressOutOfRange
        info := (s.mac.mem.read (operandOf (fetchedWord s)).toNat).toNat }) := by
  rw [stepMacro_of_opcode inRange loadid (by decide)]
  exact exec_loadid_of_above (s := s.setIr (fetchedWord s)) allowed above

/-- An instruction that passes the gate and its own check continues (60_exceptions.md R210). The
cases stand in the order of the opcode table; only opcodes 6, 12 and 13 have something to pass. -/
theorem exec_macroRow_continues {opcode : BitVec 4} {a : Addr}
    (gate : opcode = 12 ∨ opcode = 13 → s.config.extAllowed = true)
    (divisor : opcode = 6 → s.mac.mem.read a.toNat ≠ 0)
    (pointer : opcode = 13 → (s.mac.mem.read a.toNat).toNat ≤ 4095) :
    ∃ t, exec (macroRow opcode a) s = .next t ∧ t.mac.status = Status.running := by
  fin_cases opcode
  · exact ⟨_, exec_nop a s, rfl⟩
  · exact ⟨_, exec_load a s, rfl⟩
  · exact ⟨_, exec_store a s, rfl⟩
  · exact ⟨_, exec_add a s, rfl⟩
  · exact ⟨_, exec_subtract a s, rfl⟩
  · exact ⟨_, exec_multiply a s, rfl⟩
  · exact ⟨_, exec_divide_of_ne_zero (divisor rfl), rfl⟩
  · exact ⟨_, exec_jump a s, rfl⟩
  · exact ⟨_, exec_jumpzero a s, rfl⟩
  · exact ⟨_, exec_jumpneg a s, rfl⟩
  · exact ⟨_, exec_jumpsub a s, rfl⟩
  · exact ⟨_, exec_ret a s, rfl⟩
  · exact ⟨_, exec_loadi_of_allowed (gate (.inl rfl)) a, rfl⟩
  · exact ⟨_, exec_loadid_of_inRange (gate (.inr rfl)) (pointer rfl), rfl⟩
  · exact ⟨_, exec_unknown14 a s, rfl⟩
  · exact ⟨_, exec_unknown15 a s, rfl⟩

end

/-! ### The priority -/

/-- STATUS after a macro step, one rule of the step for each check of the priority
(60_exceptions.md R217). -/
theorem stepMacro_status (s : State) :
    ∃ t, stepMacro s = .next t ∧ t.mac.status = macroStatusAfter s := by
  simp only [macroStatusAfter]
  split_ifs with above zero gate divisor pointer
  · exact ⟨_, stepMacro_of_above above, rfl⟩
  all_goals have inRange : s.mac.pc ≤ 4095 := Nat.le_of_not_lt above
  · exact ⟨_, stepMacro_of_zero inRange zero, rfl⟩
  · obtain ⟨gated, disabled⟩ := gate
    exact ⟨_, stepMacro_of_disabled inRange rfl gated disabled, rfl⟩
  all_goals simp only [not_and, Bool.not_eq_false] at gate
  · obtain ⟨divide, zeroCell⟩ := divisor
    exact ⟨_, stepMacro_of_zero_divisor inRange divide zeroCell, rfl⟩
  · obtain ⟨loadid, cellAbove⟩ := pointer
    exact ⟨_, stepMacro_of_pointer_above inRange loadid (gate (.inr loadid)) cellAbove, rfl⟩
  · rw [stepMacro_of_ne_zero inRange zero]
    exact exec_macroRow_continues (s := s.setIr (fetchedWord s)) gate (not_and.mp divisor)
      fun loadid => Nat.le_of_not_lt (not_and.mp pointer loadid)

/-- DivideByZero has one cause (60_exceptions.md R211). -/
theorem macroStatusAfter_divideByZero {s : State}
    (h : (macroStatusAfter s).code = .divideByZero) :
    opcodeOf (fetchedWord s) = 6 ∧ s.mac.mem.read (operandOf (fetchedWord s)).toNat = 0 := by
  simp only [macroStatusAfter] at h
  split_ifs at h with above zero gate divisor
  exact divisor

/-! ### The statements -/

/-- Settles O23: each check of the priority has its rule of the step. -/
theorem macroStatusFollowsThePriority : Obligations.MacroStatusFollowsThePriority := by
  intro s turn
  rw [step_macroMachine turn]
  exact stepMacro_status s

/-- Settles O14: the check's own rule gives the record, and the priority names no other cause. -/
theorem divideByZeroIsRecorded : Obligations.DivideByZeroIsRecorded := by
  refine ⟨fun a s turn inRange fetched zero => ?_, fun s t turn h code => ?_⟩
  · have word : fetchedWord s = macroWordOf 6 a := fetched
    have divide : opcodeOf (fetchedWord s) = 6 := by rw [word, opcodeOf_macroWordOf]
    have operand : operandOf (fetchedWord s) = a := by rw [word, operandOf_macroWordOf]
    have zeroCell : s.mac.mem.read (operandOf (fetchedWord s)).toNat = 0 := by rw [operand, zero]
    rw [step_macroMachine turn, stepMacro_of_zero_divisor inRange divide zeroCell, operand, word]
    rfl
  · obtain ⟨t', runs, status⟩ := stepMacro_status s
    cases runs.symm.trans ((step_macroMachine turn).symm.trans h)
    exact macroStatusAfter_divideByZero (status ▸ code)

/-- Settles O22: the gate's rule of the step, at the fetched word. -/
theorem disabledExtensionsAreRecorded : Obligations.DisabledExtensionsAreRecorded := by
  intro a opcode s gated disabled turn inRange fetched
  have word : fetchedWord s = macroWordOf opcode a := fetched
  have opcodeAt : opcodeOf (fetchedWord s) = opcode := by rw [word, opcodeOf_macroWordOf]
  rw [step_macroMachine turn, stepMacro_of_disabled inRange opcodeAt gated disabled, word]
  rfl

/-- A macro step that stops writes STATUS, and IR where the fetch is in range
(60_exceptions.md R218). -/
theorem stepMacro_precise_of_stopped {s t : State} (h : stepMacro s = .next t)
    (stopped : t.mac.status.code ≠ .running) :
    t = (s.setIr (if s.mac.pc ≤ 4095 then fetchedWord s else s.mac.ir)).setMacStatus
      t.mac.status := by
  rcases stepMacro_cases s with ⟨above, faults⟩ | ⟨inRange, t', runs, effect⟩
  · cases faults.symm.trans h
    rw [if_neg (by omega)]
    rfl
  · cases runs.symm.trans h
    obtain ⟨st, rfl⟩ := effect.eq_setMacStatus_of_stopped stopped
    rw [if_pos (by omega), setMacStatus_mac_status]

/-- Settles O24: a step that stops changes IR and STATUS, which the next step does not read. -/
theorem stoppedMacroStepIsPreciseAndRepeats : Obligations.StoppedMacroStepIsPreciseAndRepeats := by
  intro s t turn h stopped
  rw [step_macroMachine turn] at h
  have precise := stepMacro_precise_of_stopped h stopped
  have turnAfter : t.turn = .macroMachine := (congrArg State.turn precise).trans turn
  exact ⟨precise, (step_macroMachine turnAfter).trans (stepMacro_of_stopped h stopped)⟩

end Sys2Proof.Machine

/-!
Reset and isolation (70_reset_and_hazards.md): the resets (O47), the two `loadProgram` commands
(O45, O46), the host's register writes (O48), and that a step sees nothing of the other machine
(O42). For O42 a macro step is followed while the micro machine beside it is replaced (`IgnoresMic`); the laws
of a loaded image come before the two loads.
-/

namespace Sys2Proof.Machine

/-! ### A step does not see the other machine -/

/-- With any other micro machine beside it, `f` answers the same state but for that machine, which
it leaves in place (20_memory.md R60). -/
def IgnoresMic (f : State → Host.Outcome State Fault Refusal) : Prop :=
  ∀ (s : State) (m : MicroMachine), ∃ t, f s = .next t ∧ f (s.setMic m) = .next (t.setMic m)

theorem exec_divide_ignoresMic (a : Addr) : IgnoresMic (exec (.divide a)) := by
  intro s m
  by_cases zero : s.mac.mem.read a.toNat = 0
  · exact ⟨_, exec_divide_of_zero zero, exec_divide_of_zero (s := s.setMic m) zero⟩
  · exact ⟨_, exec_divide_of_ne_zero zero, exec_divide_of_ne_zero (s := s.setMic m) zero⟩

theorem exec_loadi_ignoresMic (a : Addr) : IgnoresMic (exec (.loadi a)) := by
  intro s m
  cases gate : s.config.extAllowed with
  | true => exact ⟨_, exec_loadi_of_allowed gate a, exec_loadi_of_allowed (s := s.setMic m) gate a⟩
  | false =>
    exact ⟨_, exec_loadi_of_disabled gate a, exec_loadi_of_disabled (s := s.setMic m) gate a⟩

theorem exec_loadid_ignoresMic (a : Addr) : IgnoresMic (exec (.loadid a)) := by
  intro s m
  cases gate : s.config.extAllowed with
  | true =>
    rcases Nat.lt_or_ge 4095 (s.mac.mem.read a.toNat).toNat with above | inRange
    · exact ⟨_, exec_loadid_of_above gate above, exec_loadid_of_above (s := s.setMic m) gate above⟩
    · exact ⟨_, exec_loadid_of_inRange gate inRange,
        exec_loadid_of_inRange (s := s.setMic m) gate inRange⟩
  | false => exact ⟨_, exec_loadid_of_disabled gate, exec_loadid_of_disabled (s := s.setMic m) gate⟩

/-- Each instruction's answer is written in terms of the macro machine and the configuration. The
cases stand in the order of the opcode table. -/
theorem exec_macroRow_ignoresMic (opcode : BitVec 4) (a : Addr) :
    IgnoresMic (exec (macroRow opcode a)) := by
  intro s m
  fin_cases opcode
  · exact ⟨_, exec_nop a s, exec_nop a (s.setMic m)⟩
  · exact ⟨_, exec_load a s, exec_load a (s.setMic m)⟩
  · exact ⟨_, exec_store a s, exec_store a (s.setMic m)⟩
  · exact ⟨_, exec_add a s, exec_add a (s.setMic m)⟩
  · exact ⟨_, exec_subtract a s, exec_subtract a (s.setMic m)⟩
  · exact ⟨_, exec_multiply a s, exec_multiply a (s.setMic m)⟩
  · exact exec_divide_ignoresMic a s m
  · exact ⟨_, exec_jump a s, exec_jump a (s.setMic m)⟩
  · exact ⟨_, exec_jumpzero a s, exec_jumpzero a (s.setMic m)⟩
  · exact ⟨_, exec_jumpneg a s, exec_jumpneg a (s.setMic m)⟩
  · exact ⟨_, exec_jumpsub a s, exec_jumpsub a (s.setMic m)⟩
  · exact ⟨_, exec_ret a s, exec_ret a (s.setMic m)⟩
  · exact exec_loadi_ignoresMic a s m
  · exact exec_loadid_ignoresMic a s m
  · exact ⟨_, exec_unknown14 a s, exec_unknown14 a (s.setMic m)⟩
  · exact ⟨_, exec_unknown15 a s, exec_unknown15 a (s.setMic m)⟩

/-- The fetch and the halt read the macro machine alone (41_macro_cycle.md R131 to R133). -/
theorem stepMacro_ignoresMic : IgnoresMic stepMacro := by
  intro s m
  rcases Nat.lt_or_ge 4095 s.mac.pc with above | inRange
  · exact ⟨_, stepMacro_of_above above, stepMacro_of_above (s := s.setMic m) above⟩
  · by_cases zero : fetchedWord s = 0
    · exact ⟨_, stepMacro_of_zero inRange zero, stepMacro_of_zero (s := s.setMic m) inRange zero⟩
    · rw [stepMacro_of_ne_zero inRange zero, stepMacro_of_ne_zero (s := s.setMic m) inRange zero]
      exact exec_macroRow_ignoresMic _ _ (s.setIr (fetchedWord s)) m

section Agreement

variable {s s' : State}

theorem eq_setMic_of_agree (turn : s.turn = s'.turn) (agree : AgreeFor .macroMachine s s') :
    s' = s.setMic s'.mic := by
  obtain ⟨config, mac⟩ := agree
  rw [State.setMic, config, mac, turn]

theorem stepMacro_agrees (turn : s.turn = s'.turn) (agree : AgreeFor .macroMachine s s') :
    ∃ t t', stepMacro s = .next t ∧ stepMacro s' = .next t' ∧ AgreeFor .macroMachine t t' := by
  obtain ⟨t, answers, answers'⟩ := stepMacro_ignoresMic s s'.mic
  rw [← eq_setMic_of_agree turn agree] at answers'
  exact ⟨t, t.setMic s'.mic, answers, answers', rfl, rfl⟩

theorem runControlWord_agrees (agree : AgreeFor .microMachine s s') (w : ControlWord) :
    AgreeFor .microMachine (s.runControlWord w) (s'.runControlWord w) := by
  obtain ⟨config, mic⟩ := agree
  refine ⟨config, ?_⟩
  simp only [State.runControlWord, setMicStatus_mic, setMic_mic, config, mic]

theorem setMicStatus_agrees (agree : AgreeFor .microMachine s s') (st : Status) :
    AgreeFor .microMachine (s.setMicStatus st) (s'.setMicStatus st) := by
  obtain ⟨config, mic⟩ := agree
  exact ⟨config, congrArg (fun m : MicroMachine => { m with status := st }) mic⟩

/-- MIR, in the micro machine itself, decides between the halt and the cycle. -/
theorem stepMicro_agrees (agree : AgreeFor .microMachine s s') :
    ∃ t t', stepMicro s = .next t ∧ stepMicro s' = .next t' ∧ AgreeFor .microMachine t t' := by
  have ⟨_, mic⟩ := agree
  by_cases zero : s.mic.mir = 0
  · have zero' : s'.mic.mir = 0 := mic ▸ zero
    refine ⟨_, _, stepMicro_of_zero zero, stepMicro_of_zero zero', ?_⟩
    rw [← mic]
    exact setMicStatus_agrees agree _
  · have nonzero' : s'.mic.mir ≠ 0 := mic ▸ zero
    refine ⟨_, _, stepMicro_of_ne_zero zero, stepMicro_of_ne_zero nonzero', ?_⟩
    rw [← mic]
    exact runControlWord_agrees agree _

end Agreement

/-- Settles O42, by the machine whose turn it is. -/
theorem stepDependsOnItsOwnMachineOnly : Obligations.StepDependsOnItsOwnMachineOnly := by
  intro s s' turn agree
  cases own : s.turn with
  | macroMachine =>
    rw [own] at agree
    rw [step_macroMachine own, step_macroMachine (turn.symm.trans own)]
    exact stepMacro_agrees turn agree
  | microMachine =>
    rw [own] at agree
    rw [step_microMachine own, step_microMachine (turn.symm.trans own)]
    exact stepMicro_agrees agree

/-! ### What a loaded image reads -/

section Image

variable {n w : Nat}

/-- Placing an image leaves every address that it does not list as it was. -/
theorem read_image_onto_of_notMem {image : List (BitVec n × BitVec w)} {a : BitVec n}
    (unlisted : a ∉ image.map Prod.fst) (m : Memory w) :
    Memory.read (image.foldl (fun m p => m.write p.1.toNat p.2) m) a.toNat = m.read a.toNat := by
  induction image generalizing m with
  | nil => rfl
  | cons p rest ih =>
    obtain ⟨other, later⟩ := not_or.mp (mt List.mem_cons.mpr unlisted)
    rw [List.foldl_cons, ih later]
    exact read_write_other _ _ _ _ (mt BitVec.eq_of_toNat_eq other)

/-- An address that no entry lists reads 0 (30_encoding.md R89). -/
theorem read_imageMemory_of_notMem {image : List (BitVec n × BitVec w)} {a : BitVec n}
    (unlisted : a ∉ image.map Prod.fst) : (imageMemory image).read a.toNat = 0 :=
  read_image_onto_of_notMem unlisted []

/-- An address reads its last entry: the entries before it only leave an address space in canonical
form, and those after it list other addresses (30_encoding.md R89). -/
theorem read_imageMemory_of_last {before after : List (BitVec n × BitVec w)} {a : BitVec n}
    (last : a ∉ after.map Prod.fst) (v : BitVec w) :
    (imageMemory (before ++ (a, v) :: after)).read a.toNat = v := by
  obtain ⟨rising, -⟩ := wf_imageMemory le_rfl before
  rw [imageMemory, List.foldl_append, List.foldl_cons, read_image_onto_of_notMem last]
  exact read_write_same _ rising _ _

end Image

/-! ### The two loads -/

/-- Settles O45: the load stores the image's address space, by whose laws every cell reads. -/
theorem loadProgramGivesAFreshMachine : Obligations.LoadProgramGivesAFreshMachine := by
  intro image start s
  refine ⟨fun nonneg le => ?_, fun outside => if_neg ?_⟩
  · refine ⟨_, if_pos ((inBounds_memoryCells_iff start).mpr ⟨nonneg, le⟩), rfl,
      fun a unlisted => read_imageMemory_of_notMem unlisted, ?_⟩
    rintro before a w after rfl last
    exact read_imageMemory_of_last last w
  · rw [inBounds_memoryCells_iff]
    omega

/-- An address of CS given by the host in range is the number given. -/
theorem toNat_ofInt_of_inRange {n : Int} (nonneg : 0 ≤ n) (le : n ≤ 255) :
    (BitVec.ofInt 8 n).toNat = n.toNat := by
  rw [BitVec.toNat_ofInt]
  omega

/-- Sending MPC to an address given by the host in range fetches the control word there
(70_reset_and_hazards.md R234, decision D23). -/
theorem goTo_of_inRange {n : Int} (nonneg : 0 ≤ n) (le : n ≤ 255) (m : MicroMachine) :
    m.goTo (BitVec.ofNat 8 n.toNat) =
      { m with mpc := BitVec.ofInt 8 n, mir := m.cs.read n.toNat } := by
  rw [← BitVec.ofInt_natCast, Int.toNat_of_nonneg nonneg, MicroMachine.goTo,
    MicroMachine.controlWordAt, toNat_ofInt_of_inRange nonneg le]

theorem loadMicroProgram_of_inRange {start : Int} (nonneg : 0 ≤ start) (le : start ≤ 255)
    (image : List (MicroAddr × ControlWord)) (s : State) :
    s.loadMicroProgram image start = .ok (s.setMic { MicroMachine.reset with
      cs := imageMemory image
      mpc := BitVec.ofInt 8 start
      mir := (imageMemory image).read start.toNat }) := by
  have inRange := (inBounds_controlStoreEntries_iff start).mpr ⟨nonneg, le⟩
  simp only [State.loadMicroProgram, if_pos inRange, goTo_of_inRange nonneg le]
  rfl

/-- Settles O46: as O45, with the control word at the start address in MIR. -/
theorem microLoadProgramFillsTheControlStore :
    Obligations.MicroLoadProgramFillsTheControlStore := by
  intro image start s
  refine ⟨fun nonneg le => ?_, fun outside => if_neg ?_⟩
  · refine ⟨_, loadMicroProgram_of_inRange nonneg le image s, rfl,
      fun a unlisted => read_imageMemory_of_notMem unlisted, ?_⟩
    rintro before a w after rfl last
    exact read_imageMemory_of_last last w
  · rw [inBounds_controlStoreEntries_iff]
    omega

/-! ### The host's registers -/

/-- A data register written by the host reads back the signed view (decision D25). -/
theorem signedView_wrapWord (n : Int) : signedView (wrapWord n) = (BitVec.ofInt 16 n).toInt := by
  rw [signedView_eq, wrapWord_eq]

/-- MAR written by the host holds the value modulo 4096 (70_reset_and_hazards.md R234). -/
theorem toNat_wrapAt_twelve (n : Int) :
    ((BitVec.ofNat 12 (wrapAt 12 n)).toNat : Int) = n % 4096 := by
  rw [BitVec.toNat_ofNat, Nat.mod_eq_of_lt (wrapAt_lt 12 n), wrapAt_cast]
  rfl

theorem inBounds_pc_iff (n : Int) : inBounds n 65536 = true ↔ 0 ≤ n ∧ n ≤ 65535 := by
  rw [inBounds_iff]
  omega

theorem writeRegister_mpc_of_inRange {n : Int} (nonneg : 0 ≤ n) (le : n ≤ 255) (s : State) :
    s.writeRegister .mpc n = .ok (s.setMic
      { s.mic with mpc := BitVec.ofInt 8 n, mir := s.mic.cs.read n.toNat }) := by
  rw [State.writeRegister, if_pos ((inBounds_controlStoreEntries_iff n).mpr ⟨nonneg, le⟩),
    goTo_of_inRange nonneg le]

/-- Settles O48, register by register: the data registers and MAR wrap, PC and MPC are bounded. -/
theorem hostRegistersReadBackWhatIsWritten : Obligations.HostRegistersReadBackWhatIsWritten := by
  intro n s
  have readBack := signedView_wrapWord n
  refine ⟨⟨_, rfl, readBack, rfl⟩, ⟨_, rfl, readBack, rfl⟩, ⟨_, rfl, readBack, rfl⟩,
    ⟨_, rfl, readBack, rfl⟩, ⟨_, rfl, readBack, rfl⟩, ⟨_, rfl, readBack, rfl⟩,
    ⟨_, rfl, toNat_wrapAt_twelve n, rfl⟩, ?pc, ?pcOutside, ?mpc, ?mpcOutside⟩
  case pc =>
    intro nonneg le
    exact ⟨_, if_pos ((inBounds_pc_iff n).mpr ⟨nonneg, le⟩), Int.toNat_of_nonneg nonneg, rfl⟩
  case pcOutside =>
    refine fun outside => if_neg ?_
    rw [inBounds_pc_iff]
    omega
  case mpc =>
    intro nonneg le
    refine ⟨_, writeRegister_mpc_of_inRange nonneg le s, ?_, rfl⟩
    exact (congrArg Nat.cast (toNat_ofInt_of_inRange nonneg le)).trans (Int.toNat_of_nonneg nonneg)
  case mpcOutside =>
    refine fun outside => if_neg ?_
    rw [inBounds_controlStoreEntries_iff]
    omega

/-! ### The resets -/

/-- Settles O47: the resets write the reset values, and `State.reset` holds them already. -/
theorem resetLeavesTheResetValues : Obligations.ResetLeavesTheResetValues :=
  ⟨fun _ => rfl, fun _ => rfl, read_nil, rfl, rfl, read_nil⟩

end Sys2Proof.Machine

/-!
The block as a whole. First the two round trips of the encoding (O1 to O3): a 16-bit word by the
rows of the opcode table, a control word by its lowest-numbered set bit. Then what one step is (O5,
O7), what every step keeps (O6, O41), that the naming of a control word makes no difference (O34),
that construction and every host command give a sound block (O38, O40), and that the canonical form
of an address space is faithful (O43).
-/

namespace Sys2Proof

/-! ### The bit that names a control word -/

theorem ControlBit.mem_all (b : ControlBit) : b ∈ ControlBit.all := by
  cases b <;> decide

theorem ControlBit.all_rising : ControlBit.all.Pairwise fun b c => b.number < c.number := by
  decide

/-- The control bits that stand before a bit in the list are those with a lower number. -/
theorem ControlBit.mem_before_iff {before after : List ControlBit} {b : ControlBit}
    (listed : ControlBit.all = before ++ b :: after) (c : ControlBit) :
    c ∈ before ↔ c.number < b.number := by
  have rising := ControlBit.all_rising
  rw [listed, List.pairwise_append, List.pairwise_cons] at rising
  obtain ⟨-, ⟨afterAbove, -⟩, beforeBelow⟩ := rising
  refine ⟨fun isBefore => beforeBelow c isBefore b List.mem_cons_self, fun below => ?_⟩
  have position := ControlBit.mem_all c
  rw [listed, List.mem_append, List.mem_cons] at position
  rcases position with isBefore | rfl | isAfter
  · exact isBefore
  · exact absurd below (Nat.lt_irrefl _)
  · exact absurd below (Nat.lt_asymm (afterAbove c isAfter))

theorem leadsWith_iff (b : ControlBit) (w : ControlWord) :
    leadsWith b w = true ↔
      hasBit w b = true ∧ ∀ c : ControlBit, c.number < b.number → hasBit w c = false := by
  simp only [leadsWith, setsOwnBit, noLowerBit, Bool.and_eq_true, List.all_eq_true,
    ControlBit.mem_all, forall_const, Bool.not_eq_true', Bool.and_eq_false_imp, decide_eq_true_eq]

/-- The decoder's search for a set bit finds the bit that the well-formedness of a row asks for. -/
theorem leadBit_eq_some_iff (w : ControlWord) (b : ControlBit) :
    leadBit w = some b ↔ leadsWith b w = true := by
  rw [leadBit, List.find?_eq_some_iff_append, leadsWith_iff]
  refine and_congr_right fun _ => ⟨?_, fun lowerClear => ?_⟩
  · rintro ⟨before, after, listed, clear⟩ c below
    exact (Bool.not_eq_true' _).mp (clear c ((ControlBit.mem_before_iff listed c).mpr below))
  · obtain ⟨before, after, listed⟩ := List.append_of_mem (ControlBit.mem_all b)
    exact ⟨before, after, listed, fun c isBefore =>
      (Bool.not_eq_true' _).mpr (lowerClear c ((ControlBit.mem_before_iff listed c).mp isBefore))⟩

/-! ### The rows of the two formats -/

theorem wellFormed_macroRow (opcode : BitVec 4) (a : Addr) :
    (macroRow opcode a).wellFormed = (opcode != 0 || a != 0) := by
  fin_cases opcode <;> rfl

theorem encode_macroRow (opcode : BitVec 4) (a : Addr) :
    encode (macroRow opcode a) = .macroWord (macroWordOf opcode a) := by
  fin_cases opcode <;> rfl

theorem wellFormed_rowOfBit (b : ControlBit) (w : ControlWord) :
    (rowOfBit b w).wellFormed = leadsWith b w := by
  cases b <;> rfl

theorem encode_rowOfBit (b : ControlBit) (w : ControlWord) :
    encode (rowOfBit b w) = .controlWord w := by
  cases b <;> rfl

/-- `IsRow i`: `i` is one of the two halt sentinels, the row of an opcode at an operand
(30_encoding.md R72), or the row of a control bit for a control word (R75). -/
inductive IsRow : Instr → Prop
  | haltWord : IsRow .haltWord
  | ofOpcode (opcode : BitVec 4) (a : Addr) : IsRow (macroRow opcode a)
  | ofBit (b : ControlBit) (w : ControlWord) : IsRow (rowOfBit b w)
  | cwHalt : IsRow .cwHalt

/-- Every instruction is a row, in the order of the opcode table. -/
theorem isRow : ∀ i : Instr, IsRow i
  | .haltWord => .haltWord
  | .nop a => .ofOpcode 0 a
  | .load a => .ofOpcode 1 a
  | .store a => .ofOpcode 2 a
  | .add a => .ofOpcode 3 a
  | .subtract a => .ofOpcode 4 a
  | .multiply a => .ofOpcode 5 a
  | .divide a => .ofOpcode 6 a
  | .jump a => .ofOpcode 7 a
  | .jumpzero a => .ofOpcode 8 a
  | .jumpneg a => .ofOpcode 9 a
  | .jumpsub a => .ofOpcode 10 a
  | .ret a => .ofOpcode 11 a
  | .loadi a => .ofOpcode 12 a
  | .loadid a => .ofOpcode 13 a
  | .unknown14 a => .ofOpcode 14 a
  | .unknown15 a => .ofOpcode 15 a
  | .cb1AToV2 w => .ofBit .cb1 w
  | .cb2BToV2 w => .ofBit .cb2 w
  | .cb3CToV2 w => .ofBit .cb3 w
  | .cb4DToV2 w => .ofBit .cb4 w
  | .cb5OneToV1 w => .ofBit .cb5 w
  | .cb6MdrToV1 w => .ofBit .cb6 w
  | .cb7Complement w => .ofBit .cb7 w
  | .cb8Double w => .ofBit .cb8 w
  | .cb9LatchA w => .ofBit .cb9 w
  | .cb10LatchB w => .ofBit .cb10 w
  | .cb11LatchC w => .ofBit .cb11 w
  | .cb12LatchD w => .ofBit .cb12 w
  | .cb13LatchMdr w => .ofBit .cb13 w
  | .cb14LatchMar w => .ofBit .cb14 w
  | .cb15MemRead w => .ofBit .cb15 w
  | .cb16MemWrite w => .ofBit .cb16 w
  | .cb17SeqOne w => .ofBit .cb17 w
  | .cb18SeqLit8 w => .ofBit .cb18 w
  | .cb19BranchZero w => .ofBit .cb19 w
  | .cb20BranchNeg w => .ofBit .cb20 w
  | .cb21Dispatch w => .ofBit .cb21 w
  | .cb22SeqRelative w => .ofBit .cb22 w
  | .cwHalt => .cwHalt

/-! ### The round trips -/

theorem wellFormed_macroRow_iff (opcode : BitVec 4) (a : Addr) :
    (macroRow opcode a).wellFormed = true ↔ opcode ≠ 0 ∨ a ≠ 0 := by
  rw [wellFormed_macroRow, Bool.or_eq_true, bne_iff_ne, bne_iff_ne]

theorem decodeControlWord_of_leadsWith {b : ControlBit} {w : ControlWord}
    (leads : leadsWith b w = true) : decodeControlWord w = rowOfBit b w := by
  rw [decodeControlWord, (leadBit_eq_some_iff w b).mpr leads]

/-- Settles O2, row by row: a well-formed row is the one that the decoder reads from its word. -/
theorem decodeOfEncodeIsTheInstruction : Obligations.DecodeOfEncodeIsTheInstruction := by
  intro i wellFormed
  cases isRow i with
  | haltWord => rfl
  | ofOpcode opcode a =>
    rw [encode_macroRow]
    exact decodeMacroWord_macroWordOf ((wellFormed_macroRow_iff opcode a).mp wellFormed)
  | ofBit b w =>
    rw [encode_rowOfBit]
    exact decodeControlWord_of_leadsWith ((wellFormed_rowOfBit b w).symm.trans wellFormed)
  | cwHalt => rfl

theorem fields_ne_zero_of_ne_zero {w : Word} (nonzero : w ≠ 0) :
    opcodeOf w ≠ 0 ∨ operandOf w ≠ 0 := by
  refine not_and_or.mp fun ⟨opcodeZero, operandZero⟩ => nonzero ?_
  rw [← macroWordOf_fields w, opcodeZero, operandZero]
  rfl

theorem decodeMacroWord_roundTrip (w : Word) :
    (decodeMacroWord w).wellFormed = true ∧ encode (decodeMacroWord w) = .macroWord w := by
  by_cases zero : w = 0
  · subst zero
    exact ⟨rfl, rfl⟩
  · rw [decodeMacroWord_of_ne_zero zero, encode_macroRow, macroWordOf_fields]
    exact ⟨(wellFormed_macroRow_iff _ _).mpr (fields_ne_zero_of_ne_zero zero), rfl⟩

theorem decodeControlWord_roundTrip (w : ControlWord) :
    (decodeControlWord w).wellFormed = true ∧ encode (decodeControlWord w) = .controlWord w := by
  cases lead : leadBit w with
  | none =>
    rw [eq_zero_of_leadBit_eq_none lead]
    exact ⟨rfl, rfl⟩
  | some b =>
    have leads := (leadBit_eq_some_iff w b).mp lead
    rw [decodeControlWord_of_leadsWith leads]
    exact ⟨(wellFormed_rowOfBit b w).trans leads, encode_rowOfBit b w⟩

/-- Settles O3, by the format of the word. -/
theorem encodeOfDecodeIsTheWord : Obligations.EncodeOfDecodeIsTheWord
  | .macroWord w => decodeMacroWord_roundTrip w
  | .controlWord w => decodeControlWord_roundTrip w

/-- Settles O1: the decoder is evaluated on each word. -/
theorem decoderReadsTheSpecsWords : Obligations.DecoderReadsTheSpecsWords :=
  ⟨rfl, rfl, rfl, rfl, rfl, rfl, rfl, rfl, rfl⟩

end Sys2Proof

namespace Sys2Proof.Machine

/-! ### One step -/

/-- Settles O5: the fetch in range puts the word at PC into IR, and a micro step runs MIR. -/
theorem stepRunsTheDecodedInstruction : Obligations.StepRunsTheDecodedInstruction := by
  refine ⟨fun s turn inRange => ?_, fun s turn => step_microMachine turn⟩
  rw [step_macroMachine turn]
  exact stepMacro_of_inRange (Nat.lt_succ_of_le inRange)

/-- Settles O7: the fetch outside M takes its fault. -/
theorem fetchAboveMemoryFaults : Obligations.FetchAboveMemoryFaults := fun _ turn above =>
  (step_macroMachine turn).trans (stepMacro_of_above above)

/-! ### What every step keeps -/

theorem MacroEffect.config_eq {a : Addr} {s t : State} (h : MacroEffect a s t) :
    t.config = s.config := by
  cases h <;> rfl

theorem stepMacro_keeps_config {s t : State} (h : stepMacro s = .next t) :
    t.config = s.config := by
  rcases stepMacro_cases s with ⟨-, faults⟩ | ⟨-, t', runs, effect⟩
  · cases faults.symm.trans h
    rfl
  · cases runs.symm.trans h
    exact effect.config_eq

/-- A control word leaves the macro machine (20_memory.md R60) and the configuration. -/
theorem stepMicro_keeps_mac_config {s t : State} (h : stepMicro s = .next t) :
    t.mac = s.mac ∧ t.config = s.config := by
  rcases exec_decodeControlWord s.mic.mir s with halts | runs
  · cases halts.symm.trans h
    exact ⟨rfl, rfl⟩
  · cases runs.symm.trans h
    exact ⟨rfl, rfl⟩

theorem step_keeps_config {s t : State} (h : step s = .next t) : t.config = s.config := by
  cases turn : s.turn with
  | macroMachine => exact stepMacro_keeps_config ((step_macroMachine turn).symm.trans h)
  | microMachine => exact (stepMicro_keeps_mac_config ((step_microMachine turn).symm.trans h)).2

/-- Settles O6: every step answers a state with the same turn, and no step writes the
configuration. -/
theorem everyStepAnswersANextState : Obligations.EveryStepAnswersANextState := by
  intro s
  obtain ⟨t, answers, turn⟩ := exists_step_eq_next s
  exact ⟨t, answers, step_keeps_config answers, turn⟩

/-- Settles O41, by the machine whose turn it is. -/
theorem machinesShareNoState : Obligations.MachinesShareNoState := by
  refine fun s t h => ⟨fun turn => ?_, fun turn => ?_⟩
  · exact stepMacro_keeps_mic ((step_macroMachine turn).symm.trans h)
  · exact (stepMicro_keeps_mac_config ((step_microMachine turn).symm.trans h)).1

/-- Settles O34: the row of any set bit means the cycle of the whole word, and so does the row that
the decoder names, since the word is not zero. -/
theorem rowsOfOneWordAgree : Obligations.RowsOfOneWordAgree := by
  intro b w s set
  rw [exec_rowOfBit_eq_after, exec_decodeControlWord_of_ne_zero (ne_zero_of_hasBit set)]

/-! ### Construction and the host's commands keep the block sound -/

theorem MacroMachine.reset_sound : MacroMachine.reset.Sound :=
  ⟨wf_nil 4096, Nat.zero_le _⟩

/-- A reset keeps CS and fetches MIR from it (70_reset_and_hazards.md R233). -/
theorem MicroMachine.resetKeepingStore_sound {m : MicroMachine} (store : Memory.wf 256 m.cs) :
    m.resetKeepingStore.Sound :=
  ⟨store, wf_nil 4096, rfl, .inl rfl⟩

/-- Sending MPC anywhere fetches MIR from there (decision D23). -/
theorem MicroMachine.goTo_sound {m : MicroMachine} (h : m.Sound) (a : MicroAddr) :
    (m.goTo a).Sound := by
  obtain ⟨store, data, -, status⟩ := h
  exact ⟨store, data, rfl, status⟩

/-- A newly constructed micro machine is one reset with an empty control store. -/
theorem MicroMachine.reset_sound : MicroMachine.reset.Sound :=
  resetKeepingStore_sound (m := MicroMachine.reset) (wf_nil 256)

theorem construct_sound (cfg : Config) : (State.construct cfg).Sound :=
  ⟨MacroMachine.reset_sound, MicroMachine.reset_sound⟩

/-- Settles O38: both machines are constructed at their reset values. -/
theorem constructionIsSound : Obligations.ConstructionIsSound :=
  ⟨construct_sound, construct_sound Config.atReset⟩

section Commands

variable {s t : State}

theorem stepped_sound (s : State) (sound : s.Sound) : s.stepped.Sound :=
  stepKeepsTheBlockSound s s.stepped sound (step_eq_next_stepped s)

theorem iterate_stepped_sound (sound : s.Sound) (n : Nat) : (State.stepped^[n] s).Sound :=
  Function.Iterate.rec State.Sound sound stepped_sound n

/-- A run that ends, ends in the state after some number of steps. -/
theorem run_sound {cap : Nat} (sound : s.Sound) (h : s.run cap = some t) : t.Sound := by
  obtain ⟨k, -, rfl, -⟩ := (run_eq_some_iff cap s t).mp h
  exact iterate_stepped_sound sound (k + 1)

theorem loadMacroProgram_sound {image : List (Addr × Word)} {start : Int} (sound : s.Sound)
    (h : s.loadMacroProgram image start = .ok t) : t.Sound := by
  obtain ⟨-, mic⟩ := sound
  unfold State.loadMacroProgram at h
  split at h
  case isTrue inRange =>
    obtain ⟨nonneg, le⟩ := (inBounds_memoryCells_iff start).mp inRange
    cases h
    exact ⟨⟨wf_imageMemory le_rfl image, show start.toNat ≤ 65535 by omega⟩, mic⟩
  case isFalse => cases h

theorem loadMicroProgram_sound {store : List (MicroAddr × ControlWord)} {start : Int}
    (sound : s.Sound) (h : s.loadMicroProgram store start = .ok t) : t.Sound := by
  obtain ⟨mac, -⟩ := sound
  unfold State.loadMicroProgram at h
  split at h
  case isTrue =>
    cases h
    have loaded : Memory.wf 256 (imageMemory store) := wf_imageMemory le_rfl store
    exact ⟨mac, MicroMachine.goTo_sound (MicroMachine.resetKeepingStore_sound loaded) _⟩
  case isFalse => cases h

theorem setDataMemory_sound {mem : Memory 16} (sound : s.Sound) (canonical : mem.wf 4096)
    (m : Agent) : (s.setDataMemory mem m).Sound := by
  obtain ⟨⟨wfMem, pc⟩, ⟨store, wfUm, mir, status⟩⟩ := sound
  cases m with
  | macroMachine => exact ⟨⟨canonical, pc⟩, store, wfUm, mir, status⟩
  | microMachine => exact ⟨⟨wfMem, pc⟩, store, canonical, mir, status⟩

theorem setMemory_sound {m : Agent} {a n : Int} (sound : s.Sound)
    (h : s.setMemory m a n = .ok t) : t.Sound := by
  by_cases inRange : inBounds a memoryCells = true
  · cases (setMemory_of_inRange inRange m n s).symm.trans h
    obtain ⟨nonneg, le⟩ := (inBounds_memoryCells_iff a).mp inRange
    exact setDataMemory_sound sound
      (wf_write _ (sound.wf_dataMemory m) _ (by omega) _) m
  · cases (setMemory_of_outOfRange inRange m n s).symm.trans h

/-- The invariant speaks of no data register and not of MAR; PC is bounded, and a write of MPC
fetches MIR (70_reset_and_hazards.md R234). -/
theorem writeRegister_sound {r : WritableRegister} {n : Int} (sound : s.Sound)
    (h : s.writeRegister r n = .ok t) : t.Sound := by
  obtain ⟨mac, mic⟩ := sound
  cases r with
  | acc | a | b | c | d | mdr | mar => cases h; exact ⟨mac, mic⟩
  | pc =>
    simp only [State.writeRegister] at h
    split at h
    case isTrue inRange =>
      obtain ⟨wfMem, -⟩ := mac
      obtain ⟨nonneg, le⟩ := (inBounds_pc_iff n).mp inRange
      cases h
      exact ⟨⟨wfMem, show n.toNat ≤ 65535 by omega⟩, mic⟩
    case isFalse => cases h
  | mpc =>
    simp only [State.writeRegister] at h
    split at h
    case isTrue => cases h; exact ⟨mac, MicroMachine.goTo_sound mic _⟩
    case isFalse => cases h

theorem eq_ok_of_changing_eq_ok {result : Except HostError State} {r : Reply}
    (h : changing result = .ok (t, r)) : result = .ok t := by
  cases result <;> cases h
  rfl

theorem eq_of_reading_eq_ok {result : Except HostError Int} {r : Reply}
    (h : reading s result = .ok (t, r)) : t = s := by
  cases result <;> cases h
  rfl

end Commands

/-- Settles O40, command by command: a step keeps the invariant, hence so does a run; a load or a
reset establishes it for its machine; a host's write keeps it; a read changes nothing. -/
theorem commandsKeepTheBlockSound : Obligations.CommandsKeepTheBlockSound := by
  intro c s t r sound h
  cases c with
  | loadMacroProgram image start => exact loadMacroProgram_sound sound (eq_ok_of_changing_eq_ok h)
  | loadMicroProgram store start => exact loadMicroProgram_sound sound (eq_ok_of_changing_eq_ok h)
  | step m =>
    cases h
    exact stepped_sound (s.select m) sound
  | run m cap =>
    have selected : (s.select m).Sound := sound
    simp only [State.command] at h
    split at h
    next ended =>
      cases h
      exact run_sound selected ended
    next =>
      cases h
      exact iterate_stepped_sound selected cap
  | reset m =>
    obtain ⟨mac, mic⟩ := sound
    cases m with
    | macroMachine =>
      cases h
      exact ⟨MacroMachine.reset_sound, mic⟩
    | microMachine =>
      obtain ⟨store, -⟩ := mic
      cases h
      exact ⟨mac, MicroMachine.resetKeepingStore_sound store⟩
  | readMemory m a => rwa [eq_of_reading_eq_ok h]
  | setMemory m a n => exact setMemory_sound sound (eq_ok_of_changing_eq_ok h)
  | readRegister reg => cases h; exact sound
  | readStatus m => cases h; exact sound
  | readMir => cases h; exact sound
  | writeRegister reg n => exact writeRegister_sound sound (eq_ok_of_changing_eq_ok h)

/-! ### The canonical form of an address space -/

section Canonical

variable {w : Nat}

/-- A cell that does not read 0 is listed. -/
theorem mem_of_read_ne_zero {m : Memory w} {a : Nat} (nonzero : m.read a ≠ 0) :
    (a, m.read a) ∈ m := by
  induction m with
  | nil => exact absurd rfl nonzero
  | cons p rest ih =>
    rw [read_cons] at nonzero ⊢
    split at nonzero
    case isTrue here => subst here; simp
    case isFalse elsewhere =>
      rw [if_neg elsewhere]
      exact List.mem_cons_of_mem p (ih nonzero)

/-- In canonical form the pairs listed are the cells that do not read 0. -/
theorem mem_iff_read {bound : Nat} {m : Memory w} (canonical : m.wf bound) (p : Nat × BitVec w) :
    p ∈ m ↔ p.2 ≠ 0 ∧ m.read p.1 = p.2 := by
  obtain ⟨rising, listed⟩ := canonical
  refine ⟨fun member => ⟨(listed p member).2, read_of_mem m rising p member⟩, ?_⟩
  rintro ⟨nonzero, reads⟩
  rw [← reads] at nonzero
  have member := mem_of_read_ne_zero nonzero
  rwa [reads] at member

end Canonical

/-- Settles O43: what an address space in canonical form lists is determined by its reads, and its
order by the rising addresses. -/
theorem memoriesThatReadAlikeAreEqual : Obligations.MemoriesThatReadAlikeAreEqual := by
  intro w bound m m' canonical canonical' alike
  have sameMembers : ∀ p, p ∈ m ↔ p ∈ m' := fun p => by
    rw [mem_iff_read canonical, mem_iff_read canonical', alike]
  obtain ⟨rising, -⟩ := canonical
  obtain ⟨rising', -⟩ := canonical'
  exact rising.eq_of_mem_iff rising' sameMembers

end Sys2Proof.Machine
